-- ==== Sys2Proof/Word.lean ====
section
/-! DEFINITION. The bit vectors of the unit (R5, R7, R45). -/

namespace Sys2Proof

/-- A byte is 8 bits (R5). -/
abbrev Byte := BitVec 8

/-- The 32-bit value operand `imm` of a command and the 32-bit data word of a response (R7). -/
abbrev Word := BitVec 32

/-- The 8-bit width operand `n` of a command (R7, R45). -/
abbrev Width := BitVec 8

/-- The 8-bit opcode field `op` (R45). -/
abbrev Opcode := BitVec 8

/-- A command word, `cmd[47:0]` (R45). -/
abbrev CmdWord := BitVec 48

end Sys2Proof
end

