-- ==== Sys2Proof/Syntax.lean ====
section
/-! DEFINITION. The sixteen commands (R48), one constructor per row of spec/opcode_table.json. Operands stand as the
command word carries them (R49): `n` is the 8-bit width operand, `imm` the 32-bit value operand. -/

namespace Sys2Proof

/-- A decoded command with its operands (R48, R49). -/
inductive Instr
  /-- `RBIND len` (R60). -/
  | rbind (len : Word)
  /-- `WNEW` (R70). -/
  | wnew
  /-- `STATUS` (R89). -/
  | status
  /-- `RREAD n` (R62). Every 8-bit `n` is a legal encoding (R51). -/
  | rread (n : Width)
  /-- `RALIGN` (R64). -/
  | ralign
  /-- `RATEND` (R65). -/
  | ratend
  /-- `WBITS n, imm` (R72). Every 8-bit `n` is a legal encoding (R51). -/
  | wbits (n : Width) (imm : Word)
  /-- `WR8 imm` (R74). -/
  | wr8 (imm : Word)
  /-- `WR16 imm` (R75). -/
  | wr16 (imm : Word)
  /-- `WR32 imm` (R76). -/
  | wr32 (imm : Word)
  /-- `WALIGN` (R77). -/
  | walign
  /-- `WBIT bit` (R78): the bit is `imm[0]`, and `imm[31:1]` must be zero (R49; log 13). -/
  | wbit (imm : Word)
  /-- `WCOUNT` (R79). -/
  | wcount
  /-- `WBEGIN` (R85). -/
  | wbegin
  /-- `WEND` (R86). -/
  | wend
  /-- `WRDBYTE idx` (R87). -/
  | wrdbyte (idx : Word)
  deriving DecidableEq, Repr

end Sys2Proof
end

