-- ==== Sys2Proof/WellFormed.lean ====
section
/-! DEFINITION. Which terms of `Instr` stand for a command word. The operand types already hold every field to its
width, so one check is left: the must-be-zero bits inside the value operand of format B (R46, R47, R49). -/

namespace Sys2Proof

/-- The must-be-zero bits of the operands are zero: `imm[31:1] = 0` for `WBIT`, "only 0 and 1 are accepted" (D13).
A width outside 1 to 32 is NOT ill-formed: such words are legal encodings (R51). -/
def Instr.wf : Instr → Bool
  | .rbind _ => true
  | .wnew => true
  | .status => true
  | .rread _ => true
  | .ralign => true
  | .ratend => true
  | .wbits _ _ => true
  | .wr8 _ => true
  | .wr16 _ => true
  | .wr32 _ => true
  | .walign => true
  | .wbit imm => imm.toNat ≤ 1
  | .wcount => true
  | .wbegin => true
  | .wend => true
  | .wrdbyte _ => true

end Sys2Proof
end

