-- ==== Sys2Proof/Decode.lean ====
section
/-! DEFINITION. Command words to commands and back (R45 to R53): the opcode map as a table of rows, a total decoder
that names why a word is illegal, and the encoder written from the same map. -/

namespace Sys2Proof

/-- The five formats (R46). -/
inductive Format
  | Z | N | NI | I | B
  deriving DecidableEq, Repr

/-- R45: `op` is bits 47:40. -/
def CmdWord.op (w : CmdWord) : Opcode := w.extractLsb' 40 8

/-- R45: `n` is bits 39:32. -/
def CmdWord.n (w : CmdWord) : Width := w.extractLsb' 32 8

/-- R45: `imm` is bits 31:0. -/
def CmdWord.imm (w : CmdWord) : Word := w.extractLsb' 0 32

/-- R45: the three fields at their positions. -/
def CmdWord.ofFields (op : Opcode) (n : Width) (imm : Word) : CmdWord := (op ++ n) ++ imm

/-- The 48-bit mask of a format, the numbers of R46. -/
def Format.mask : Format → CmdWord
  | .Z => 0xFFFFFFFFFFFF
  | .N => 0xFF00FFFFFFFF
  | .NI => 0xFF0000000000
  | .I => 0xFFFF00000000
  | .B => 0xFFFFFFFFFFFE

/-- R46, R47: the bits a format marks MBZ are zero in the operand fields. -/
def Format.mbzClear (f : Format) (n : Width) (imm : Word) : Bool :=
  match f with
  | .Z => n == 0 && imm == 0
  | .N => imm == 0
  | .NI => true
  | .I => n == 0
  | .B => n == 0 && imm >>> 1 == 0

/-- One row of the opcode map (R48). `build` makes the command from the operand fields (R49). -/
structure Row where
  op : Opcode
  format : Format
  build : Width → Word → Instr

/-- The `match` value of a row: "the 48-bit value with the opcode in place and every other bit 0" (R48). -/
def Row.matchWord (r : Row) : CmdWord := CmdWord.ofFields r.op 0 0

/-- The opcode map, version 1 (R48). -/
def opcodeMap : List Row := [
  ⟨0x01, .I, fun _ imm => .rbind imm⟩,
  ⟨0x02, .Z, fun _ _ => .wnew⟩,
  ⟨0x03, .Z, fun _ _ => .status⟩,
  ⟨0x10, .N, fun n _ => .rread n⟩,
  ⟨0x11, .Z, fun _ _ => .ralign⟩,
  ⟨0x12, .Z, fun _ _ => .ratend⟩,
  ⟨0x20, .NI, fun n imm => .wbits n imm⟩,
  ⟨0x21, .I, fun _ imm => .wr8 imm⟩,
  ⟨0x22, .I, fun _ imm => .wr16 imm⟩,
  ⟨0x23, .I, fun _ imm => .wr32 imm⟩,
  ⟨0x24, .Z, fun _ _ => .walign⟩,
  ⟨0x25, .B, fun _ imm => .wbit imm⟩,
  ⟨0x26, .Z, fun _ _ => .wcount⟩,
  ⟨0x27, .Z, fun _ _ => .wbegin⟩,
  ⟨0x28, .Z, fun _ _ => .wend⟩,
  ⟨0x29, .I, fun _ imm => .wrdbyte imm⟩]

/-- Why a word is an illegal command (R50). Both raise the same fault `E_ILLEGAL`. -/
inductive DecodeError
  /-- "any word whose `op` is not one of the sixteen assigned values". -/
  | unassignedOpcode
  /-- "any word whose `op` is assigned but which has an MBZ bit set". -/
  | mbzBitSet
  deriving DecidableEq, Repr

/-- R53: a total function from 48-bit words to the sixteen commands or the verdict "illegal", of no state. -/
def decode (w : CmdWord) : Except DecodeError Instr :=
  match opcodeMap.find? (fun r => r.op == CmdWord.op w) with
  | none => .error .unassignedOpcode
  | some r =>
    if r.format.mbzClear (CmdWord.n w) (CmdWord.imm w) then .ok (r.build (CmdWord.n w) (CmdWord.imm w))
    else .error .mbzBitSet

/-- The opcode of a command (R48). -/
def Instr.opcode : Instr → Opcode
  | .rbind _ => 0x01
  | .wnew => 0x02
  | .status => 0x03
  | .rread _ => 0x10
  | .ralign => 0x11
  | .ratend => 0x12
  | .wbits _ _ => 0x20
  | .wr8 _ => 0x21
  | .wr16 _ => 0x22
  | .wr32 _ => 0x23
  | .walign => 0x24
  | .wbit _ => 0x25
  | .wcount => 0x26
  | .wbegin => 0x27
  | .wend => 0x28
  | .wrdbyte _ => 0x29

/-- The `n` field of a command's word: its width operand, or zero where the format does not use it (R46). -/
def Instr.widthField : Instr → Width
  | .rread n => n
  | .wbits n _ => n
  | .rbind _ | .wnew | .status | .ralign | .ratend | .wr8 _ | .wr16 _ | .wr32 _ | .walign | .wbit _ | .wcount
  | .wbegin | .wend | .wrdbyte _ => 0

/-- The `imm` field of a command's word: its value operand, or zero where the format does not use it (R46). -/
def Instr.valueField : Instr → Word
  | .rbind imm | .wbits _ imm | .wr8 imm | .wr16 imm | .wr32 imm | .wbit imm | .wrdbyte imm => imm
  | .wnew | .status | .rread _ | .ralign | .ratend | .walign | .wcount | .wbegin | .wend => 0

/-- The command word of a command (R45, R48). -/
def encode (i : Instr) : CmdWord := CmdWord.ofFields i.opcode i.widthField i.valueField

/-- The command read from the bits `w` of a row of spec/opcode_table.json: every row is one 48-bit word with bit 0 its
least significant bit, and there is no operand word after it (R53), so the bits above `nbits` are zero and a number
of more than 48 bits is no command word (log 21). -/
def decodeTableWord (nbits w : Nat) : Option Instr :=
  if w % 2 ^ nbits < 2 ^ 48 then
    match decode (BitVec.ofNat 48 (w % 2 ^ nbits)) with
    | .ok i => some i
    | .error _ => none
  else none

/-! ### Other columns of the opcode map, and the classes of commands its rules name -/

/-- The "half" column of R48. -/
inductive Half
  | reader | writer | neither
  deriving DecidableEq, Repr

/-- The half a command belongs to (R48). -/
def Instr.half : Instr → Half
  | .rbind _ | .rread _ | .ralign | .ratend => .reader
  | .wnew | .wbits _ _ | .wr8 _ | .wr16 _ | .wr32 _ | .walign | .wbit _ | .wcount | .wbegin | .wend | .wrdbyte _ => .writer
  | .status => .neither

/-- The "returns data" column of R48. -/
def Instr.returnsData : Instr → Bool
  | .status | .rread _ | .ratend | .wcount | .wbegin | .wend | .wrdbyte _ => true
  | .rbind _ | .wnew | .ralign | .wbits _ _ | .wr8 _ | .wr16 _ | .wr32 _ | .walign | .wbit _ => false

/-- The number of bits a write command appends (R120). -/
def Instr.writeWidth : Instr → Option Nat
  | .wbits n _ => some n.toNat
  | .wr8 _ => some 8
  | .wr16 _ => some 16
  | .wr32 _ => some 32
  | .wbit _ => some 1
  | .rbind _ | .wnew | .status | .rread _ | .ralign | .ratend | .walign | .wcount | .wbegin | .wend | .wrdbyte _ => none

/-- The exempt constructors of R99 step 4. -/
def Instr.isConstructor : Instr → Bool
  | .rbind _ | .wnew => true
  | .status | .rread _ | .ralign | .ratend | .wbits _ _ | .wr8 _ | .wr16 _ | .wr32 _ | .walign | .wbit _ | .wcount
  | .wbegin | .wend | .wrdbyte _ => false

/-- R99 step 3: "the command is RREAD or WBITS and not (1 <= n <= 32)". -/
def Instr.widthInvalid : Instr → Bool
  | .rread n | .wbits n _ => !(1 ≤ n.toNat && n.toNat ≤ 32)
  | .rbind _ | .wnew | .status | .ralign | .ratend | .wr8 _ | .wr16 _ | .wr32 _ | .walign | .wbit _ | .wcount | .wbegin
  | .wend | .wrdbyte _ => false

end Sys2Proof
end

