-- ==== Sys2Proof/Config.lean ====
section
/-! DEFINITION. What an implementation fixes: the two capacities (R6), the readings the spec wants carried as
configuration switches (D6, D7, D8, D9), and the free value of a source byte that was never written (U3). -/

namespace Sys2Proof

/-- The named parameters of R6. They are fixed for one machine: no step changes them (log 5). -/
structure Config where
  /-- `RCAP`, the number of bytes of the source memory. -/
  rcap : Nat
  /-- `WCAP`, the largest number of committed bytes of the writer buffer. -/
  wcap : Nat
  deriving DecidableEq, Repr

/-- R6: "value this spec takes when none is given", 2^32 - 1 for both. -/
def Config.standard : Config := { rcap := 2 ^ 32 - 1, wcap := 2 ^ 32 - 1 }

/-- R6: each capacity ranges over 0 .. 2^32 - 1. -/
abbrev Config.legal (c : Config) : Prop := c.rcap ≤ 2 ^ 32 - 1 ∧ c.wcap ≤ 2 ^ 32 - 1

/-- The value of source byte `a` in power-up draw `d`, for a byte the host has not written since power-up: any value,
one draw per byte, the same until written (U3, D24). A FREE VALUE: it has no body, so nothing can be proved of it
(log 7). -/
opaque Config.srcPowerUp (d a : Nat) : Byte

/-- D6, U10: what the alignment commands do on a byte boundary (log 10). -/
inductive AlignOnBoundary
  /-- Nothing: the reading of this spec. -/
  | noop
  /-- Skip, or emit, one whole byte. -/
  | fullByte
  deriving DecidableEq, Repr

/-- D7, D8, U11: whether the writer's open byte belongs to the bytes that are counted and read out (log 11). -/
inductive OpenByteView
  /-- Only committed bytes: the reading of this spec. -/
  | notCounted
  /-- The open byte counts as one more byte while it holds a bit. -/
  | counted
  deriving DecidableEq, Repr

/-- D9, U12: what the end-of-buffer query asks (log 12). -/
inductive EndOfBuffer
  /-- No bit remains: the reading of this spec. -/
  | noBitsRemain
  /-- The cursor is in the last byte, or past it. -/
  | inLastByte
  deriving DecidableEq, Repr

end Sys2Proof
end

