-- ==== Sys2Proof/Machine/State.lean ====
section
/-! DEFINITION. The state of the unit (R10), the transactions of the host (R56), the responses (R52), the reasons a step
can stop, and the state after reset (R27). -/

namespace Sys2Proof.Machine

/-- The six faults (R96). `E_HALTED` is not among them: it records nothing (R94). -/
inductive FaultCode
  /-- Illegal command word; fatal. -/
  | eIllegal
  /-- Field width outside 1 to 32; fatal. -/
  | eWidth
  /-- Out-of-range read; local to the reader. -/
  | eOor
  /-- Bind longer than RCAP; local to the reader. -/
  | eBind
  /-- Writer capacity overflow; local to the writer. -/
  | eWovf
  /-- Read-out index not below W.LEN; local to the writer. -/
  | eWidx
  deriving DecidableEq, Repr

/-- The status of a response, the names of R96. -/
inductive Status
  | ok | eIllegal | eWidth | eOor | eBind | eWovf | eWidx | eHalted
  deriving DecidableEq, Repr

/-- `R.ERR`: "4 bits, one of 0, 3, 4" (R10, R14). The 4-bit code is `ReaderErr.code` (log 14). -/
inductive ReaderErr
  | none | eOor | eBind
  deriving DecidableEq, Repr

/-- `W.ERR`: "4 bits, one of 0, 5, 6" (R10, R18). -/
inductive WriterErr
  | none | eWovf | eWidx
  deriving DecidableEq, Repr

/-- `FATAL`: "4 bits, one of 0, 1, 2" (R10, R19). -/
inductive FatalErr
  | none | eIllegal | eWidth
  deriving DecidableEq, Repr

/-- R52: "status, and a 32-bit result only when the command returns data and the status is `OK`". -/
structure Response where
  status : Status
  result : Option Word
  deriving DecidableEq, Repr

/-- R56: what the host does at the unit's interface, each transaction atomic. -/
inductive Transaction
  /-- The host presents a command word. -/
  | command (w : CmdWord)
  /-- The host writes one byte of SRC (R43). -/
  | sourceWrite (a : Nat) (b : Byte)
  /-- The host resets the unit (R110). -/
  | reset
  deriving DecidableEq, Repr

/-- A sparse byte memory: the addresses written, strictly rising, each with its byte (`Memory.wf`). An address that is
not listed was never written and has no entry of its own, so no listed entry equals what an unlisted address holds. -/
abbrev Memory := List Host.Cell

/-- The state. The nine registers and two memories of R10, the parameters of R6, and the model's own `powerUp`, `port`
and `responses`. `W.LEN` is the length of `wbuf` (U4; log 6), see `State.wLen`. -/
structure State where
  /-- `RCAP` and `WCAP` (R6). -/
  cfg : Config
  /-- `R.BYTE` (R11). -/
  rByte : Nat
  /-- `R.BIT` (R11). -/
  rBit : Fin 8
  /-- `R.LEN` (R12). -/
  rLen : Nat
  /-- `R.ERR` (R14). -/
  rErr : ReaderErr
  /-- `W.FILL` (R16). -/
  wFill : Fin 8
  /-- `W.ACC`, the open byte (R17). -/
  wAcc : Byte
  /-- `W.ERR` (R18). -/
  wErr : WriterErr
  /-- `FATAL` (R19). -/
  fatal : FatalErr
  /-- The written bytes of `SRC` (R30). -/
  src : Memory
  /-- `WBUF[0], ..., WBUF[W.LEN-1]`, the committed bytes in index order (R15, R31). -/
  wbuf : List Byte
  /-- The model's own: which power-up draw the never-written bytes of SRC come from (U3; log 7). -/
  powerUp : Nat
  /-- The model's own: the transactions the host has not yet made, oldest first (R118; log 2). -/
  port : List Transaction
  /-- The model's own: the responses sent so far, oldest first (R118; log 4). -/
  responses : List Response
  deriving DecidableEq, Repr

/-- `W.LEN`, the number of committed bytes (R15). -/
abbrev State.wLen (s : State) : Nat := s.wbuf.length

/-- Why the machine stops with a fault. No command does: a fault of the unit (R96) is a next state (log 1). -/
inductive Fault
  /-- Raised by the host transaction `sourceWrite` at an index at or above RCAP, a byte of SRC that does not exist (R30).
  Safe: the model stops. -/
  | sourceIndexOutside
  deriving DecidableEq, Repr

/-- Why the machine refuses. No command it decodes is refused. -/
inductive Refusal
  /-- Raised by an arm of `exec` whose command has no meaning yet; no arm does. Safe: the model stops. -/
  | notModelled (mnemonic : String)
  /-- Raised by the host transaction `sourceWrite` below R.LEN, which the host must not make (R43) and U2 tells a model to
  refuse. Safe: the model stops. -/
  | sourceWriteBound
  /-- Raised by a meaning that would call a memory primitive outside its requirement, where R44 asks for a refusal and
  never a value. No state reaches it, since every meaning checks its bounds first. Safe: the model stops. -/
  | outsideRequirement
  deriving DecidableEq, Repr

/-- What a step or a meaning answers. -/
abbrev Answer := Host.Outcome State Fault Refusal

/-- The state after reset (R27), with the parameters' given-none values (R6), no source byte written, and nothing
presented or answered yet (log 2, log 4, log 7). -/
def State.reset : State :=
  { cfg := Config.standard
    rByte := 0, rBit := 0, rLen := 0, rErr := .none
    wFill := 0, wAcc := 0, wErr := .none
    fatal := .none
    src := [], wbuf := []
    powerUp := 0, port := [], responses := [] }

end Sys2Proof.Machine
end

