-- ==== Sys2Proof/Machine/Flags.lean ====
section
/-! DEFINITION. The unit's flags are its three fault registers (R22); here are their codes (R96), the status word that
views them (R23) and a response as one word (R52; log 22). -/

namespace Sys2Proof.Machine

/-- The 4-bit status codes (R96). Codes 8 to 15 are never produced. -/
def Status.code : Status → BitVec 4
  | .ok => 0
  | .eIllegal => 1
  | .eWidth => 2
  | .eOor => 3
  | .eBind => 4
  | .eWovf => 5
  | .eWidx => 6
  | .eHalted => 7

/-- The status a fault is answered with. -/
def FaultCode.status : FaultCode → Status
  | .eIllegal => .eIllegal
  | .eWidth => .eWidth
  | .eOor => .eOor
  | .eBind => .eBind
  | .eWovf => .eWovf
  | .eWidx => .eWidx

/-- The 4 bits of `R.ERR`, "0 (none), 3 (`E_OOR`) or 4 (`E_BIND`)" (R14). -/
def ReaderErr.code : ReaderErr → BitVec 4
  | .none => 0
  | .eOor => 3
  | .eBind => 4

/-- The 4 bits of `W.ERR`, "0 (none), 5 (`E_WOVF`) or 6 (`E_WIDX`)" (R18). -/
def WriterErr.code : WriterErr → BitVec 4
  | .none => 0
  | .eWovf => 5
  | .eWidx => 6

/-- The 4 bits of `FATAL`, "0 (none), 1 (`E_ILLEGAL`) or 2 (`E_WIDTH`)" (R19). -/
def FatalErr.code : FatalErr → BitVec 4
  | .none => 0
  | .eIllegal => 1
  | .eWidth => 2

/-- `STATUSW = zext_32({FATAL, W.ERR, R.ERR})` (R23). -/
def statusWord (s : State) : Word :=
  ((s.fatal.code ++ s.wErr.code) ++ s.rErr.code).setWidth 32

/-- R52: the data word on the pins; 0 whenever the response carries no result. -/
def Response.data (r : Response) : Word := r.result.getD 0

/-- "one response of 36 bits" (R52) as one word. R52 and R7 name a 4-bit status and a 32-bit data word, and R56 leaves the
pins unspecified. DESIGN CHOICE: the status stands above the data, in bits 35 to 32 (log 22). -/
def Response.pins (r : Response) : BitVec 36 := r.status.code ++ r.data

end Sys2Proof.Machine
end

