-- ==== Sys2Proof/Machine/Operands.lean ====
section
/-! DEFINITION. Operands (R49) and results (D22): everything unsigned, nothing sign-extended, scaled or shifted. -/

namespace Sys2Proof.Machine

/-- R51: 1 to 32 are valid widths; 0 and 33 to 255 are encodable and raise `E_WIDTH`. -/
def widthValid (n : Width) : Bool := 1 ≤ n.toNat && n.toNat ≤ 32

/-- Bit `i` of a value operand, `imm[i]`. -/
def valueBit (imm : Word) (i : Nat) : Bool := imm.getLsbD i

/-- R49: the operand of `WBIT` carries no set must-be-zero bit, `imm[31:1] = 0`. -/
def bitOperandLegal (imm : Word) : Bool := imm.toNat ≤ 1

/-- Bit `k` of a byte in stream order: "bit offset `k` is bit `7 - k`" (R33). -/
def streamBit (b : Byte) (k : Nat) : Bool := b.getLsbD (7 - k)

/-- `(v << 1) | b`, one more bit at the low end of a 32-bit value (R62). -/
def shiftIn (v : Word) (b : Bool) : Word := (v <<< 1) ||| (BitVec.ofBool b).setWidth 32

/-- `acc | (b << (7 - fill))`, the next free bit of the open byte (R71). -/
def fillBit (acc : Byte) (fill : Nat) (b : Bool) : Byte := acc ||| ((BitVec.ofBool b).setWidth 8 <<< (7 - fill))

/-- A byte count or byte index as a data word, `zext_32` (R79, R86). -/
def countWord (k : Nat) : Word := BitVec.ofNat 32 k

/-- A byte as a data word, `zext_32` (R87). -/
def byteWord (b : Byte) : Word := b.setWidth 32

/-- The answer of a query as a data word, 1 or 0 (R65). -/
def queryWord (q : Bool) : Word := if q then 1 else 0

end Sys2Proof.Machine
end

