-- ==== Sys2Proof/Machine/Switches.lean ====
section
/-! DEFINITION. The configuration switches of D6, D7/D8 and D9, fixed at the readings of this spec (U10, U11, U12). -/

namespace Sys2Proof.Machine

/-- D6: fixed at `noop` (log 10). -/
def alignOnBoundary : AlignOnBoundary := .noop

/-- D7, D8: fixed at "not counted" (log 11). -/
def openByteView : OpenByteView := .notCounted

/-- D9: fixed at "no bits remain" (log 12). -/
def endOfBuffer : EndOfBuffer := .noBitsRemain

end Sys2Proof.Machine
end

