-- ==== Sys2Proof/Machine/Ops.lean ====
section
/-! DEFINITION. The shared operations: responses, taking a fault and recovering from one (R100, R101), the common checks
(R99), the memory primitives (R44), and the bit steps of the two halves (R61, R71). -/

namespace Sys2Proof.Machine

/-! ### Responses and faults -/

/-- The unit sends one response (R52). -/
def respond (r : Response) (s : State) : State := { s with responses := s.responses ++ [r] }

/-- `respond(OK)`. -/
def respondOk (s : State) : State := respond { status := .ok, result := none } s

/-- `respond(OK, d)`. -/
def respondData (d : Word) (s : State) : State := respond { status := .ok, result := some d } s

/-- R98: the answer to a command that is refused; "nothing recorded". -/
def respondHalted (s : State) : State := respond { status := .eHalted, result := none } s

/-- The fault's code goes into "the register of rule R96's 'recorded in' column", and nothing else changes (R97). -/
def record (f : FaultCode) (s : State) : State :=
  match f with
  | .eIllegal => { s with fatal := .eIllegal }
  | .eWidth => { s with fatal := .eWidth }
  | .eOor => { s with rErr := .eOor }
  | .eBind => { s with rErr := .eBind }
  | .eWovf => { s with wErr := .eWovf }
  | .eWidx => { s with wErr := .eWidx }

/-- `raise <Fault>` (R100): taking a fault. It records the code, answers (code, 0) and does nothing else; there is no
handler to go to. -/
def raise (f : FaultCode) (s : State) : State := respond { status := f.status, result := none } (record f s)

/-- R60, R101: a new reader session, which is also how the reader half recovers from a local fault. -/
def startReader (len : Nat) (s : State) : State := { s with rLen := len, rByte := 0, rBit := 0, rErr := .none }

/-- R70, R101: a new writer session, which is also how the writer half recovers from a local fault. -/
def startWriter (s : State) : State := { s with wbuf := [], wFill := 0, wAcc := 0, wErr := .none }

/-- R110, R111: the reset transaction sets every register to its reset value and does not write `SRC`. It is the only
way to clear `FATAL`. What belongs to the host and to the implementation stays (log 17). -/
def resetUnit (s : State) : State :=
  { State.reset with cfg := s.cfg, src := s.src, powerUp := s.powerUp, port := s.port, responses := s.responses }

/-! ### The common checks (R99) -/

/-- Step 1 for every command but `STATUS`: a fatally halted unit refuses. -/
def unlessFatal (s : State) (k : Answer) : Answer := if s.fatal = .none then k else .next (respondHalted s)

/-- Step 2 as far as an operand's own must-be-zero bits go: an illegal command raises `E_ILLEGAL`. -/
def whenLegal (legal : Bool) (s : State) (k : Answer) : Answer := if legal then k else .next (raise .eIllegal s)

/-- Step 3: a width outside 1 to 32 raises `E_WIDTH`, "before anything else about the command is looked at" (R51). -/
def whenWidth (n : Width) (s : State) (k : Answer) : Answer := if widthValid n then k else .next (raise .eWidth s)

/-- Step 4 for the reader half. -/
def unlessReaderHalted (s : State) (k : Answer) : Answer := if s.rErr = .none then k else .next (respondHalted s)

/-- Step 4 for the writer half. -/
def unlessWriterHalted (s : State) (k : Answer) : Answer := if s.wErr = .none then k else .next (respondHalted s)

/-- Steps 1 and 2 for a word that matches no row: refused if the unit is fatally halted, else `E_ILLEGAL` (R50, R99). -/
def executeIllegal (s : State) : Answer := unlessFatal s (.next (raise .eIllegal s))

/-! ### Memory -/

/-- The byte written at an address, if one was. -/
def Memory.lookup : Memory → Nat → Option Byte
  | [], _ => none
  | (k, b) :: m, a => if k = a then some b else Memory.lookup m a

/-- Writing one byte, in the canonical form. -/
def Memory.write : Memory → Nat → Byte → Memory
  | [], a, b => [(a, b)]
  | (k, c) :: m, a, b =>
    if a < k then (a, b) :: (k, c) :: m
    else if a = k then (a, b) :: m
    else (k, c) :: Memory.write m a b

/-- The canonical form: addresses strictly rising. -/
abbrev Memory.wf (m : Memory) : Prop := m.Pairwise (fun x y => x.1 < y.1)

/-- The byte of `SRC` at index `a`: the one written, or the free value of a byte never written (U3; log 7). -/
def srcByte (s : State) (a : Nat) : Byte := (Memory.lookup s.src a).getD (Config.srcPowerUp s.powerUp a)

/-- `MemRead(SRC, a, 1)`, which requires `a < R.LEN` (R44). -/
def memReadSrc (s : State) (a : Nat) : Option Byte := if a < s.rLen then some (srcByte s a) else none

/-- `MemRead(WBUF, a, 1)`, which requires `a < W.LEN` (R44). -/
def memReadWbuf (s : State) (a : Nat) : Option Byte := s.wbuf[a]?

/-- `MemWrite(WBUF, a, 1, v)`, which requires `a = W.LEN < WCAP` (R44), together with the `W.LEN <- W.LEN + 1` that follows
it at once wherever it is executed (R38). -/
def memWriteWbuf (s : State) (a : Nat) (v : Byte) : Option State :=
  if a = s.wLen ∧ a < s.cfg.wcap then some { s with wbuf := s.wbuf ++ [v] } else none

/-! ### Reader steps -/

/-- The linear bit position of the read cursor, `RP = 8 * R.BYTE + R.BIT` (R11). -/
def State.rp (s : State) : Nat := 8 * s.rByte + s.rBit.val

/-- `AdvanceR()` (R11). -/
def advanceR (s : State) : State :=
  if s.rBit = 7 then { s with rByte := s.rByte + 1, rBit := 0 } else { s with rBit := s.rBit + 1 }

/-- `ReadBit()` (R61). -/
def readBit (s : State) : Option (Bool × State) :=
  (memReadSrc s s.rByte).map fun b => (streamBit b s.rBit.val, advanceR s)

/-- The loop of `RREAD` (R62): `n` bits into `v`, "first bit read ends up most significant". -/
def readField : Nat → Word → State → Option (Word × State)
  | 0, v, s => some (v, s)
  | n + 1, v, s => (readBit s).bind fun bs => readField n (shiftIn v bs.1) bs.2

/-! ### Writer steps -/

/-- The linear bit position of the write cursor, `WP = 8 * W.LEN + W.FILL` (R16). -/
def State.wp (s : State) : Nat := 8 * s.wLen + s.wFill.val

/-- Committing the open byte: it is written at `W.LEN` and a zero-initialized one is opened (R71, R77). -/
def commitOpen (s : State) : Option State :=
  (memWriteWbuf s s.wLen s.wAcc).map fun t => { t with wAcc := 0, wFill := 0 }

/-- `PutBit(b)` (R71): the eighth bit commits the byte in the same step. -/
def putBit (b : Bool) (s : State) : Option State :=
  let acc := fillBit s.wAcc s.wFill.val b
  if s.wFill = 7 then commitOpen { s with wAcc := acc } else some { s with wAcc := acc, wFill := s.wFill + 1 }

/-- The loop of `WBITS` (R72): "bit n-1 of the value goes first". -/
def putField (imm : Word) : Nat → State → Option State
  | 0, s => some s
  | i + 1, s => (putBit (valueBit imm i) s).bind (putField imm i)

/-- The pseudocode of R72, to which R74, R75, R76 and R78 delegate: the capacity check for the whole field, then its
bits. -/
def writeField (n : Nat) (imm : Word) (s : State) : Answer :=
  if (s.wp + n) / 8 > s.cfg.wcap then .next (raise .eWovf s)
  else
    match putField imm n s with
    | some t => .next (respondOk t)
    | none => .refused .outsideRequirement

/-- The number of bytes that are counted and can be read out: `W.LEN` (R79, R86), or one more for an open byte under the
other value of the switch D7/D8. -/
def countedBytes (s : State) : Nat :=
  match openByteView with
  | .notCounted => s.wLen
  | .counted => if s.wFill = 0 then s.wLen else s.wLen + 1

/-- The byte a read-out index below `countedBytes` designates: `WBUF[idx]` (R87), or the open byte under the other value
of the switch D7/D8. -/
def readOut (s : State) (idx : Nat) : Option Byte :=
  match openByteView with
  | .notCounted => memReadWbuf s idx
  | .counted => if idx = s.wLen ∧ s.wFill ≠ 0 then some s.wAcc else memReadWbuf s idx

/-! ### Host transactions (R56) -/

/-- The host writes one byte of SRC (R43): refused below `R.LEN` (U2; log 8), a fault at an index SRC does not have
(R30). -/
def hostWriteSrc (a : Nat) (b : Byte) (s : State) : Answer :=
  if a < s.rLen then .refused .sourceWriteBound
  else if s.cfg.rcap ≤ a then .fault .sourceIndexOutside
  else .next { s with src := Memory.write s.src a b }

/-- The host's transaction is made: it is no longer pending. -/
def takeTransaction (rest : List Transaction) (s : State) : State := { s with port := rest }

/-- The host presents a command word next (R56). -/
def presentCommand (w : CmdWord) (s : State) : State := { s with port := .command w :: s.port }

end Sys2Proof.Machine
end

