-- ==== Sys2Proof/Machine/Reader.lean ====
section
/-! DEFINITION. The commands of the reader half (R60 to R65). For each: the command's own pseudocode, and its meaning,
which is the common checks of R99 in their order and then that pseudocode. -/

namespace Sys2Proof.Machine

/-- The pseudocode of R60. -/
def rbindBody (len : Word) (s : State) : Answer :=
  if len.toNat > s.cfg.rcap then .next (raise .eBind s) else .next (respondOk (startReader len.toNat s))

/-- `RBIND len` (R60). Exempt from the local halt, "because `RBIND` is how a halted reader half is recovered". -/
def execRbind (len : Word) (s : State) : Answer := unlessFatal s (rbindBody len s)

/-- The pseudocode of R62: the check on the whole field comes before any bit is consumed. -/
def rreadBody (n : Nat) (s : State) : Answer :=
  if 8 * s.rByte + s.rBit.val + n > 8 * s.rLen then .next (raise .eOor s)
  else
    match readField n 0 s with
    | some (v, t) => .next (respondData v t)
    | none => .refused .outsideRequirement

/-- `RREAD n` (R62). -/
def execRread (n : Width) (s : State) : Answer :=
  unlessFatal s (whenWidth n s (unlessReaderHalted s (rreadBody n.toNat s)))

/-- The pseudocode of R64. On a byte boundary the switch D6 decides; this spec fixes it at "does nothing". -/
def ralignBody (s : State) : Answer :=
  if s.rBit = 0 then
    match alignOnBoundary with
    | .noop => .next (respondOk s)
    | .fullByte =>
      if s.rByte < s.rLen then .next (respondOk { s with rByte := s.rByte + 1 }) else .next (raise .eOor s)
  else .next (respondOk { s with rByte := s.rByte + 1, rBit := 0 })

/-- `RALIGN` (R64). -/
def execRalign (s : State) : Answer := unlessFatal s (unlessReaderHalted s (ralignBody s))

/-- The query of R65, under the switch D9. -/
def atEnd (s : State) : Bool :=
  match endOfBuffer with
  | .noBitsRemain => s.rByte = s.rLen
  | .inLastByte => s.rLen ≤ s.rByte + 1

/-- The pseudocode of R65. -/
def ratendBody (s : State) : Answer := .next (respondData (queryWord (atEnd s)) s)

/-- `RATEND` (R65). -/
def execRatend (s : State) : Answer := unlessFatal s (unlessReaderHalted s (ratendBody s))

end Sys2Proof.Machine
end

