-- ==== Sys2Proof/Machine/Readout.lean ====
section
/-! DEFINITION. The writer read-out commands (R85 to R87) and `STATUS` (R89). For each: the command's own pseudocode, and
its meaning, which is the common checks of R99 in their order and then that pseudocode. -/

namespace Sys2Proof.Machine

/-- The pseudocode of R85. -/
def wbeginBody (s : State) : Answer := .next (respondData 0 s)

/-- `WBEGIN` (R85): "the constant 0 in every state". -/
def execWbegin (s : State) : Answer := unlessFatal s (unlessWriterHalted s (wbeginBody s))

/-- The pseudocode of R86. -/
def wendBody (s : State) : Answer := .next (respondData (countWord (countedBytes s)) s)

/-- `WEND` (R86): "the same number `WCOUNT` returns". -/
def execWend (s : State) : Answer := unlessFatal s (unlessWriterHalted s (wendBody s))

/-- The pseudocode of R87. -/
def wrdbyteBody (idx : Word) (s : State) : Answer :=
  if idx.toNat ≥ countedBytes s then .next (raise .eWidx s)
  else
    match readOut s idx.toNat with
    | some b => .next (respondData (byteWord b) s)
    | none => .refused .outsideRequirement

/-- `WRDBYTE idx` (R87): "reading a byte does not consume it". -/
def execWrdbyte (idx : Word) (s : State) : Answer := unlessFatal s (unlessWriterHalted s (wrdbyteBody idx s))

/-- The pseudocode of R89. -/
def statusBody (s : State) : Answer := .next (respondData (statusWord s) s)

/-- `STATUS` (R89): the one command executed "even when the unit is fatally halted (`FATAL != 0`) and whichever half is
locally halted". -/
def execStatus (s : State) : Answer := statusBody s

end Sys2Proof.Machine
end

