-- ==== Sys2Proof/Machine/Writer.lean ====
section
/-! DEFINITION. The commands of the writer half that change or count the buffer (R70 to R79). For each: the command's own
pseudocode, and its meaning, which is the common checks of R99 in their order and then that pseudocode. -/

namespace Sys2Proof.Machine

/-- The pseudocode of R70. -/
def wnewBody (s : State) : Answer := .next (respondOk (startWriter s))

/-- `WNEW` (R70). Exempt from the local halt, "because `WNEW` is how a halted writer half is recovered". -/
def execWnew (s : State) : Answer := unlessFatal s (wnewBody s)

/-- The pseudocode of R72. -/
def wbitsBody (n : Nat) (imm : Word) (s : State) : Answer := writeField n imm s

/-- `WBITS n, imm` (R72). -/
def execWbits (n : Width) (imm : Word) (s : State) : Answer :=
  unlessFatal s (whenWidth n s (unlessWriterHalted s (wbitsBody n.toNat imm s)))

/-- The pseudocode of R74: `WBITS(8, imm)`. -/
def wr8Body (imm : Word) (s : State) : Answer := writeField 8 imm s

/-- `WR8 imm` (R74): no width check, the width is fixed. -/
def execWr8 (imm : Word) (s : State) : Answer := unlessFatal s (unlessWriterHalted s (wr8Body imm s))

/-- The pseudocode of R75: `WBITS(16, imm)`. -/
def wr16Body (imm : Word) (s : State) : Answer := writeField 16 imm s

/-- `WR16 imm` (R75). -/
def execWr16 (imm : Word) (s : State) : Answer := unlessFatal s (unlessWriterHalted s (wr16Body imm s))

/-- The pseudocode of R76: `WBITS(32, imm)`. -/
def wr32Body (imm : Word) (s : State) : Answer := writeField 32 imm s

/-- `WR32 imm` (R76). -/
def execWr32 (imm : Word) (s : State) : Answer := unlessFatal s (unlessWriterHalted s (wr32Body imm s))

/-- Committing the open byte with the capacity check of R77. -/
def commitChecked (s : State) : Answer :=
  if s.wLen + 1 > s.cfg.wcap then .next (raise .eWovf s)
  else
    match commitOpen s with
    | some t => .next (respondOk t)
    | none => .refused .outsideRequirement

/-- The pseudocode of R77. On a byte boundary the switch D6 decides; this spec fixes it at "does nothing". -/
def walignBody (s : State) : Answer :=
  if s.wFill = 0 then
    match alignOnBoundary with
    | .noop => .next (respondOk s)
    | .fullByte => commitChecked s
  else commitChecked s

/-- `WALIGN` (R77). -/
def execWalign (s : State) : Answer := unlessFatal s (unlessWriterHalted s (walignBody s))

/-- The pseudocode of R78: `WBITS(1, bit)` with `bit = imm[0]`. -/
def wbitBody (imm : Word) (s : State) : Answer := writeField 1 imm s

/-- `WBIT bit` (R78): "fatal `E_ILLEGAL` for `imm > 1`" (log 13). -/
def execWbit (imm : Word) (s : State) : Answer :=
  unlessFatal s (whenLegal (bitOperandLegal imm) s (unlessWriterHalted s (wbitBody imm s)))

/-- The pseudocode of R79. -/
def wcountBody (s : State) : Answer := .next (respondData (countWord (countedBytes s)) s)

/-- `WCOUNT` (R79). -/
def execWcount (s : State) : Answer := unlessFatal s (unlessWriterHalted s (wcountBody s))

end Sys2Proof.Machine
end

