-- ==== Sys2Proof/Machine/Dispatch.lean ====
section
/-! DEFINITION. One arm per command (R48). -/

namespace Sys2Proof.Machine

/-- The meaning of a command: the common checks of R99 and its own pseudocode. -/
def exec (i : Instr) (s : State) : Host.Outcome State Fault Refusal :=
  match i with
  | .rbind len => Sys2Proof.Machine.execRbind len s
  | .wnew => Sys2Proof.Machine.execWnew s
  | .status => Sys2Proof.Machine.execStatus s
  | .rread n => Sys2Proof.Machine.execRread n s
  | .ralign => Sys2Proof.Machine.execRalign s
  | .ratend => Sys2Proof.Machine.execRatend s
  | .wbits n imm => Sys2Proof.Machine.execWbits n imm s
  | .wr8 imm => Sys2Proof.Machine.execWr8 imm s
  | .wr16 imm => Sys2Proof.Machine.execWr16 imm s
  | .wr32 imm => Sys2Proof.Machine.execWr32 imm s
  | .walign => Sys2Proof.Machine.execWalign s
  | .wbit imm => Sys2Proof.Machine.execWbit imm s
  | .wcount => Sys2Proof.Machine.execWcount s
  | .wbegin => Sys2Proof.Machine.execWbegin s
  | .wend => Sys2Proof.Machine.execWend s
  | .wrdbyte idx => Sys2Proof.Machine.execWrdbyte idx s

end Sys2Proof.Machine
end

