-- ==== Sys2Proof/Machine/Execute.lean ====
section
/-! DEFINITION. Executing one command word (R99) and making one host transaction (R56). -/

namespace Sys2Proof.Machine

/-- `Execute(w)` (R99): the word is decoded, and its command runs or the word is answered as illegal. The checks of R99
stand in `exec`'s meanings, in their order, and in `executeIllegal`. -/
def execute (w : CmdWord) (s : State) : Answer :=
  match decode w with
  | .ok i => exec i s
  | .error _ => executeIllegal s

/-- One transaction of the host (R56). -/
def transact (x : Transaction) (s : State) : Answer :=
  match x with
  | .command w => execute w s
  | .sourceWrite a b => hostWriteSrc a b s
  | .reset => .next (resetUnit s)

/-- What happens while no transaction is pending: nothing (R40; log 3). -/
def idle (s : State) : Answer := .next s

/-- A list of commands executed in order (R118), stopping where the machine stops. -/
def runCommands : List Instr → State → Answer
  | [], s => .next s
  | i :: is, s =>
    match exec i s with
    | .next t => runCommands is t
    | .fault f => .fault f
    | .refused r => .refused r

end Sys2Proof.Machine
end

