-- ==== Sys2Proof/Machine/Step.lean ====
section
/-! DEFINITION. One step: the host's next transaction is made (R56, R118). -/

namespace Sys2Proof.Machine

/-- One step. The oldest pending transaction is taken and made; with none pending the unit is idle (log 2, log 3). -/
def step (s : State) : Host.Outcome State Fault Refusal :=
  match s.port with
  | [] => idle s
  | x :: rest => transact x (takeTransaction rest s)

/-- The state in which the host's next transaction is the command whose bits are `w`, a row of spec/opcode_table.json:
one 48-bit word, the bits above `nbits` zero (log 2, log 21). -/
def State.withFetchWord (s : State) (nbits w : Nat) : State := presentCommand (BitVec.ofNat 48 (w % 2 ^ nbits)) s

end Sys2Proof.Machine
end

