-- ==== Sys2Proof/Machine/Assembler.lean ====
section
/-! DEFINITION. The assembler syntax (R54) and the names taken from the document (R55): one line of text to at most one
command. Text is a list of characters. What R54 leaves open of the layout of a line is log 19. -/

namespace Sys2Proof.Machine

/-- Why a line is rejected. -/
inductive AsmError
  /-- The name is no mnemonic of R48 and no name of R55. -/
  | unknownName
  /-- An operand is no unsigned number in decimal, `0x` or `0b`. -/
  | notANumber
  /-- Too few or too many operands for the format. -/
  | operandCount
  /-- "an operand that does not fit its field (`n > 255`, `imm > 0xFFFFFFFF`, `bit > 1`)". -/
  | operandTooLarge
  deriving DecidableEq, Repr

/-- The operands a name takes, in the order the line writes them. -/
inductive AsmShape
  /-- Format Z: no operand. -/
  | z (i : Instr)
  /-- Format N: `n`. -/
  | n (f : Width → Instr)
  /-- Format NI: `n, imm`. -/
  | nImm (f : Width → Word → Instr)
  /-- The document's order for `WriteBits`: `value, numBits`; "operands swap places". -/
  | immN (f : Width → Word → Instr)
  /-- Format I: `imm`. -/
  | imm (f : Word → Instr)
  /-- Format B: `bit`. -/
  | bit (f : Word → Instr)

/-- The mnemonics of R48 in capitals (R54), and the document's names and `RUNBIND` (R55). -/
def asmNames : List (List Char × AsmShape) := [
  (['R', 'B', 'I', 'N', 'D'], .imm .rbind),
  (['W', 'N', 'E', 'W'], .z .wnew),
  (['S', 'T', 'A', 'T', 'U', 'S'], .z .status),
  (['R', 'R', 'E', 'A', 'D'], .n .rread),
  (['R', 'A', 'L', 'I', 'G', 'N'], .z .ralign),
  (['R', 'A', 'T', 'E', 'N', 'D'], .z .ratend),
  (['W', 'B', 'I', 'T', 'S'], .nImm .wbits),
  (['W', 'R', '8'], .imm .wr8),
  (['W', 'R', '1', '6'], .imm .wr16),
  (['W', 'R', '3', '2'], .imm .wr32),
  (['W', 'A', 'L', 'I', 'G', 'N'], .z .walign),
  (['W', 'B', 'I', 'T'], .bit .wbit),
  (['W', 'C', 'O', 'U', 'N', 'T'], .z .wcount),
  (['W', 'B', 'E', 'G', 'I', 'N'], .z .wbegin),
  (['W', 'E', 'N', 'D'], .z .wend),
  (['W', 'R', 'D', 'B', 'Y', 'T', 'E'], .imm .wrdbyte),
  (['R', 'e', 'a', 'd', 'B', 'i', 't', 's'], .n .rread),
  (['A', 'd', 'v', 'a', 'n', 'c', 'e', 'N', 'e', 'x', 't', 'B', 'y', 't', 'e'], .z .walign),
  (['W', 'r', 'i', 't', 'e', 'B', 'i', 't', 's'], .immN .wbits),
  (['W', 'r', 'i', 't', 'e', '8'], .imm .wr8),
  (['W', 'r', 'i', 't', 'e', '1', '6'], .imm .wr16),
  (['W', 'r', 'i', 't', 'e', '3', '2'], .imm .wr32),
  (['S', 'e', 't', 'N', 'e', 'x', 't', 'B', 'i', 't'], .bit .wbit),
  (['G', 'e', 't', 'B', 'y', 't', 'e', 'C', 'o', 'u', 'n', 't'], .z .wcount),
  (['B', 'e', 'g', 'i', 'n'], .z .wbegin),
  (['E', 'n', 'd'], .z .wend),
  (['R', 'U', 'N', 'B', 'I', 'N', 'D'], .z (.rbind 0))]

/-- A width operand that fits its 8 bits. `n = 0` and `n > 32` are not rejected (R54). -/
def asmWidth (n : Nat) : Except AsmError Width :=
  if n ≤ 255 then .ok (BitVec.ofNat 8 n) else .error .operandTooLarge

/-- A value operand that fits its 32 bits. -/
def asmValue (v : Nat) : Except AsmError Word :=
  if v ≤ 0xFFFFFFFF then .ok (BitVec.ofNat 32 v) else .error .operandTooLarge

/-- A bit operand: 0 or 1. -/
def asmBit (b : Nat) : Except AsmError Word :=
  if b ≤ 1 then .ok (BitVec.ofNat 32 b) else .error .operandTooLarge

/-- The command of a shape with its operands as the line writes them. -/
def assembleShape (sh : AsmShape) (ops : List Nat) : Except AsmError Instr :=
  match sh, ops with
  | .z i, [] => .ok i
  | .n f, [n] => (asmWidth n).map f
  | .nImm f, [n, v] => (asmWidth n).bind fun n => (asmValue v).map (f n)
  | .immN f, [v, n] => (asmWidth n).bind fun n => (asmValue v).map (f n)
  | .imm f, [v] => (asmValue v).map f
  | .bit f, [b] => (asmBit b).map f
  | .z _, _ | .n _, _ | .nImm _, _ | .immN _, _ | .imm _, _ | .bit _, _ => .error .operandCount

/-- The command of a name with its operands (R54, R55). -/
def assembleNamed (name : List Char) (ops : List Nat) : Except AsmError Instr :=
  match asmNames.find? (fun e => e.1 == name) with
  | none => .error .unknownName
  | some e => assembleShape e.2 ops

/-- The value of a digit, up to base 16. -/
def digitValue (c : Char) : Option Nat :=
  if 48 ≤ c.toNat ∧ c.toNat ≤ 57 then some (c.toNat - 48)
  else if 65 ≤ c.toNat ∧ c.toNat ≤ 70 then some (c.toNat - 55)
  else if 97 ≤ c.toNat ∧ c.toNat ≤ 102 then some (c.toNat - 87)
  else none

/-- The number digits write in a base, after the number `v` of the digits before them. -/
def digitsValue (base : Nat) : Nat → List Char → Option Nat
  | v, [] => some v
  | v, c :: cs =>
    match digitValue c with
    | some d => if d < base then digitsValue base (v * base + d) cs else none
    | none => none

/-- "unsigned numbers in decimal, `0x` hexadecimal or `0b` binary" (R54). -/
def asmNumber : List Char → Option Nat
  | '0' :: 'x' :: c :: cs => digitsValue 16 0 (c :: cs)
  | '0' :: 'b' :: c :: cs => digitsValue 2 0 (c :: cs)
  | c :: cs => digitsValue 10 0 (c :: cs)
  | [] => none

/-- A space or a tab. -/
def asmBlank (c : Char) : Bool := c == ' ' || c == '\t'

/-- A piece of text without the blanks at its two ends. -/
def trimBlanks (cs : List Char) : List Char := ((cs.dropWhile asmBlank).reverse.dropWhile asmBlank).reverse

/-- The pieces between commas. -/
def splitCommas : List Char → List (List Char)
  | [] => [[]]
  | c :: cs =>
    if c = ',' then [] :: splitCommas cs
    else
      match splitCommas cs with
      | [] => [[c]]
      | p :: ps => (c :: p) :: ps

/-- The numbers of an operand list. -/
def asmOperands (cs : List Char) : Except AsmError (List Nat) :=
  if cs = [] then .ok []
  else
    match (splitCommas cs).mapM (fun p => asmNumber (trimBlanks p)) with
    | some ops => .ok ops
    | none => .error .notANumber

/-- One line (R54): "the mnemonic ..., then its operands separated by a comma", and "a `;` starts a comment to the end of
the line". A line with no name is no command. -/
def assembleLine (line : List Char) : Except AsmError (Option Instr) :=
  let text := trimBlanks (line.takeWhile (fun c => c != ';'))
  if text = [] then .ok none
  else
    let name := text.takeWhile (fun c => !asmBlank c)
    match asmOperands (trimBlanks (text.dropWhile (fun c => !asmBlank c))) with
    | .ok ops => (assembleNamed name ops).map some
    | .error e => .error e

/-! ### Writing a line -/

/-- The three ways of R54 to write a number. -/
inductive Radix
  | decimal | hexadecimal | binary
  deriving DecidableEq, Repr

/-- A number as R54 writes it, hexadecimal digits in capitals as in its example `0xBEEF`. -/
def numberText : Radix → Nat → List Char
  | .decimal, v => Nat.toDigits 10 v
  | .hexadecimal, v => '0' :: 'x' :: (Nat.toDigits 16 v).map Char.toUpper
  | .binary, v => '0' :: 'b' :: Nat.toDigits 2 v

/-- "its operands separated by a comma" (R54), laid out as in the example `WBITS 4, 0b1011`. -/
def operandsText : List (Radix × Nat) → List Char
  | [] => []
  | [o] => numberText o.1 o.2
  | o :: ops => numberText o.1 o.2 ++ ',' :: ' ' :: operandsText ops

/-- A name and its operands as the examples of R54 lay them out. -/
def lineText (name : List Char) (ops : List (Radix × Nat)) : List Char :=
  if ops = [] then name else name ++ ' ' :: operandsText ops

/-- The mnemonic of a command (R48), "in capitals" (R54). -/
def instrMnemonic : Instr → List Char
  | .rbind _ => ['R', 'B', 'I', 'N', 'D']
  | .wnew => ['W', 'N', 'E', 'W']
  | .status => ['S', 'T', 'A', 'T', 'U', 'S']
  | .rread _ => ['R', 'R', 'E', 'A', 'D']
  | .ralign => ['R', 'A', 'L', 'I', 'G', 'N']
  | .ratend => ['R', 'A', 'T', 'E', 'N', 'D']
  | .wbits _ _ => ['W', 'B', 'I', 'T', 'S']
  | .wr8 _ => ['W', 'R', '8']
  | .wr16 _ => ['W', 'R', '1', '6']
  | .wr32 _ => ['W', 'R', '3', '2']
  | .walign => ['W', 'A', 'L', 'I', 'G', 'N']
  | .wbit _ => ['W', 'B', 'I', 'T']
  | .wcount => ['W', 'C', 'O', 'U', 'N', 'T']
  | .wbegin => ['W', 'B', 'E', 'G', 'I', 'N']
  | .wend => ['W', 'E', 'N', 'D']
  | .wrdbyte _ => ['W', 'R', 'D', 'B', 'Y', 'T', 'E']

/-- The operands of a command as its line writes them, width first and then value (R54). -/
def instrOperands : Instr → List Nat
  | .rread n => [n.toNat]
  | .wbits n imm => [n.toNat, imm.toNat]
  | .rbind imm | .wr8 imm | .wr16 imm | .wr32 imm | .wbit imm | .wrdbyte imm => [imm.toNat]
  | .wnew | .status | .ralign | .ratend | .walign | .wcount | .wbegin | .wend => []

end Sys2Proof.Machine
end

