-- ==== Sys2Proof/Machine/Views.lean ====
section
/-! DEFINITION. What the spec's rules are stated over: bit strings (R25, R26, R35), closed forms (R63), the snapshot (R28),
and the fault table (R95) and the order of the checks (R99) written out as the spec writes them. -/

namespace Sys2Proof.Machine

/-! ### Bit strings -/

/-- A byte "written out most significant bit first" (R25). -/
def byteBits (b : Byte) : List Bool := (List.range 8).map (streamBit b)

/-- Bytes written out in index order (R25, R26). -/
def bytesBits (bs : List Byte) : List Bool := bs.flatMap byteBits

/-- `bits_n(v)`, the `n` low bits of a value, most significant first (R35, R73). -/
def fieldBits (n : Nat) (v : Word) : List Bool := (List.range n).map fun i => valueBit v (n - 1 - i)

/-- The number a bit string writes in binary, first bit most significant. -/
def bitsValue (bs : List Bool) : Nat := bs.foldl (fun v b => 2 * v + b.toNat) 0

/-- "the big-endian number formed by the bytes", first byte most significant (R63). -/
def bytesValue (bs : List Byte) : Nat := bs.foldl (fun v b => 256 * v + b.toNat) 0

/-- `low_n(v)` (00_scope.md section 5). -/
def lowBits (n : Nat) (v : Word) : Nat := v.toNat % 2 ^ n

/-- `SrcBit(p)`, the formula of R34. -/
def srcBit (s : State) (p : Nat) : Nat := (srcByte s (p / 8)).toNat / 2 ^ (7 - p % 8) % 2

/-- The bytes of the bound buffer, `SRC[0 .. R.LEN-1]` (R12). -/
def boundBytes (s : State) : List Byte := (List.range s.rLen).map (srcByte s)

/-- `RBits` (R25). -/
def State.rBits (s : State) : List Bool := bytesBits (boundBytes s)

/-- The number the next `n` bits of the bound buffer write, first bit most significant (R62 on the view of R25). -/
def nextBits (s : State) (n : Nat) : Word := BitVec.ofNat 32 (bitsValue ((s.rBits.drop s.rp).take n))

/-- `WBits` (R26). -/
def State.wBits (s : State) : List Bool := bytesBits s.wbuf ++ (byteBits s.wAcc).take s.wFill.val

/-- The state with the read cursor at linear position `p` (R11, R33: byte `p div 8`, offset `p mod 8`). -/
def State.seekR (s : State) (p : Nat) : State := { s with rByte := p / 8, rBit := Fin.ofNat 8 p }

/-- `Snapshot(W)` (R28). -/
def snapshot (s : State) : List Byte := s.wbuf

/-! ### The order of the checks -/

/-- R99 step 5: "the command's own pseudocode". -/
def ownPseudocode (i : Instr) (s : State) : Answer :=
  match i with
  | .rbind len => rbindBody len s
  | .wnew => wnewBody s
  | .status => statusBody s
  | .rread n => rreadBody n.toNat s
  | .ralign => ralignBody s
  | .ratend => ratendBody s
  | .wbits n imm => wbitsBody n.toNat imm s
  | .wr8 imm => wr8Body imm s
  | .wr16 imm => wr16Body imm s
  | .wr32 imm => wr32Body imm s
  | .walign => walignBody s
  | .wbit imm => wbitBody imm s
  | .wcount => wcountBody s
  | .wbegin => wbeginBody s
  | .wend => wendBody s
  | .wrdbyte idx => wrdbyteBody idx s

/-- `Execute(w)` as R99 writes it: five steps, "the first step that ends the command decides the response". -/
def executeInOrder (w : CmdWord) (s : State) : Answer :=
  if s.fatal.code ≠ 0 then
    if w = 0x030000000000 then .next (respondData (statusWord s) s) else .next (respondHalted s)
  else
    match decode w with
    | .error _ => .next (raise .eIllegal s)
    | .ok i =>
      if i.widthInvalid then .next (raise .eWidth s)
      else if i.half = .reader ∧ i.isConstructor = false ∧ s.rErr.code ≠ 0 then .next (respondHalted s)
      else if i.half = .writer ∧ i.isConstructor = false ∧ s.wErr.code ≠ 0 then .next (respondHalted s)
      else ownPseudocode i s

/-- The status R95's row for the command gives in a state: each column's condition, the refusals and faults in the order
of R99. -/
def statusOfTable (i : Instr) (s : State) : Status :=
  match i with
  | .rbind len => if s.fatal ≠ .none then .eHalted else if len.toNat > s.cfg.rcap then .eBind else .ok
  | .wnew => if s.fatal ≠ .none then .eHalted else .ok
  | .status => .ok
  | .rread n =>
    if s.fatal ≠ .none then .eHalted else if n.toNat = 0 ∨ n.toNat > 32 then .eWidth
    else if s.rErr ≠ .none then .eHalted else if 8 * s.rLen < s.rp + n.toNat then .eOor else .ok
  | .ralign | .ratend => if s.fatal ≠ .none ∨ s.rErr ≠ .none then .eHalted else .ok
  | .wbits n _ =>
    if s.fatal ≠ .none then .eHalted else if n.toNat = 0 ∨ n.toNat > 32 then .eWidth
    else if s.wErr ≠ .none then .eHalted else if s.cfg.wcap < (s.wp + n.toNat) / 8 then .eWovf else .ok
  | .wr8 _ => if s.fatal ≠ .none ∨ s.wErr ≠ .none then .eHalted else if s.cfg.wcap < s.wLen + 1 then .eWovf else .ok
  | .wr16 _ => if s.fatal ≠ .none ∨ s.wErr ≠ .none then .eHalted else if s.cfg.wcap < s.wLen + 2 then .eWovf else .ok
  | .wr32 _ => if s.fatal ≠ .none ∨ s.wErr ≠ .none then .eHalted else if s.cfg.wcap < s.wLen + 4 then .eWovf else .ok
  | .walign =>
    if s.fatal ≠ .none ∨ s.wErr ≠ .none then .eHalted
    else if s.wFill ≠ 0 ∧ s.cfg.wcap < s.wLen + 1 then .eWovf else .ok
  | .wbit imm =>
    if s.fatal ≠ .none then .eHalted else if imm.toNat > 1 then .eIllegal
    else if s.wErr ≠ .none then .eHalted else if s.wFill = 7 ∧ s.cfg.wcap < s.wLen + 1 then .eWovf else .ok
  | .wcount | .wbegin | .wend => if s.fatal ≠ .none ∨ s.wErr ≠ .none then .eHalted else .ok
  | .wrdbyte idx =>
    if s.fatal ≠ .none ∨ s.wErr ≠ .none then .eHalted else if idx.toNat ≥ s.wLen then .eWidx else .ok

/-- The code of a status goes into the register R96 names for it; `OK` and `E_HALTED` record nothing. -/
def recordStatus (c : Status) (s : State) : State :=
  match c with
  | .ok => s
  | .eIllegal => { s with fatal := .eIllegal }
  | .eWidth => { s with fatal := .eWidth }
  | .eOor => { s with rErr := .eOor }
  | .eBind => { s with rErr := .eBind }
  | .eWovf => { s with wErr := .eWovf }
  | .eWidx => { s with wErr := .eWidx }
  | .eHalted => s

/-! ### Fields -/

/-- The total number of bits of a list of fields, each a width and a value (R121). -/
def totalBits (fs : List (Width × Word)) : Nat := (fs.map fun f => f.1.toNat).sum

/-- The bit string of a list of fields, `bits_w1(v1) ++ ... ++ bits_wk(vk)` (R121). -/
def fieldsBits (fs : List (Width × Word)) : List Bool := fs.flatMap fun f => fieldBits f.1.toNat f.2

/-- `WBITS w1, v1; ...; WBITS wk, vk`. -/
def writeFields (fs : List (Width × Word)) : List Instr := fs.map fun f => .wbits f.1 f.2

/-- `RREAD w1; ...; RREAD wk`. -/
def readFields (ws : List Width) : List Instr := ws.map .rread

/-- A width operand from 1 to 32 (R5, R51). -/
abbrev legalWidth (n : Width) : Prop := 1 ≤ n.toNat ∧ n.toNat ≤ 32

end Sys2Proof.Machine
end

