-- ==== Sys2Proof/Safety.lean ====
section
/-! DEFINITION. What counts as a safe run, in the terms claims use: the launch premises of R114, the invariants of R13 and
R17, and the final states of R118. -/

namespace Sys2Proof.Machine

/-- `NoFault` (R114): no fault register is set. -/
abbrev State.NoFault (s : State) : Prop := s.fatal = .none ∧ s.rErr = .none ∧ s.wErr = .none

/-- `FreshWriter` (R114). -/
abbrev State.FreshWriter (s : State) : Prop := s.wLen = 0 ∧ s.wFill = 0 ∧ s.wAcc = 0 ∧ s.wErr = .none

/-- `BoundOver(bytes)` (R114): the reader is bound over a buffer that holds these bytes. -/
abbrev State.BoundOver (s : State) (bytes : List Byte) : Prop := boundBytes s = bytes ∧ s.rErr = .none

/-- `AtStart` (R114). -/
abbrev State.AtStart (s : State) : Prop := s.rByte = 0 ∧ s.rBit = 0

/-- The reader invariant (R13). -/
abbrev State.ReaderInv (s : State) : Prop := s.rByte ≤ s.rLen ∧ (s.rByte = s.rLen → s.rBit = 0)

/-- The writer invariant (R17): the unfilled low bits of the open byte are zero. -/
abbrev State.WriterInv (s : State) : Prop := ∀ i < 8 - s.wFill.val, s.wAcc.getLsbD i = false

/-- The memory invariant of the model: `SRC` is in its canonical form and lists no index it does not have (R30). -/
abbrev State.SrcInv (s : State) : Prop := Memory.wf s.src ∧ ∀ c ∈ s.src, c.1 < s.cfg.rcap

/-- `WellFormed` (R114), with the parameters in their range (R6) and the model's memory invariant. -/
abbrev State.WellFormed (s : State) : Prop :=
  s.ReaderInv ∧ s.WriterInv ∧ s.wLen ≤ s.cfg.wcap ∧ s.rLen ≤ s.cfg.rcap ∧ s.cfg.legal ∧ s.SrcInv

/-- R118: the run is over (nothing is pending) and "final exactly when `NoFault` holds". -/
abbrev State.Final (s : State) : Prop := s.port = [] ∧ s.NoFault

end Sys2Proof.Machine
end

