-- ==== Sys2Proof/Certificates/Slice0/Obligations.lean ====
section
/-! DEFINITION. The statements for the provers. Each docstring names the rules of spec/ it formalises. A statement that
gives the state after a command as a record update of the state before is at once its result, its completion and its
frame: every field not named in the update is unchanged, every byte of both memories among them. -/

open Sys2Proof Sys2Proof.Machine

/-! ### Encoding -/

/-- Sixteen words of the encoding vectors V13, one for each command, decode to their commands. -/
def Obligations.SpecWordsDecodeToTheirCommands : Prop :=
  decode 0x0100FFFFFFFF = .ok (.rbind 0xFFFFFFFF) ∧ decode 0x020000000000 = .ok .wnew ∧
  decode 0x030000000000 = .ok .status ∧ decode 0x102000000000 = .ok (.rread 32) ∧
  decode 0x110000000000 = .ok .ralign ∧ decode 0x120000000000 = .ok .ratend ∧
  decode 0x200B00000018 = .ok (.wbits 11 0x18) ∧ decode 0x21000000007E = .ok (.wr8 0x7E) ∧
  decode 0x22000000BEEF = .ok (.wr16 0xBEEF) ∧ decode 0x2300DEADBEEF = .ok (.wr32 0xDEADBEEF) ∧
  decode 0x240000000000 = .ok .walign ∧ decode 0x250000000001 = .ok (.wbit 1) ∧
  decode 0x260000000000 = .ok .wcount ∧ decode 0x270000000000 = .ok .wbegin ∧
  decode 0x280000000000 = .ok .wend ∧ decode 0x290000000003 = .ok (.wrdbyte 3)

/-- Decoding the word of any well-formed command, with every operand at every value its field admits, gives the command
back (R45, R48, R53). -/
def Obligations.DecodeOfEncodeIsTheCommand : Prop := ∀ i : Instr, i.wf = true → decode (encode i) = .ok i

/-- A word that decodes is the encoding of what it decodes to, so no two words mean one command (R47). -/
def Obligations.EncodeOfDecodeIsTheWord : Prop := ∀ w i, decode w = .ok i → i.wf = true ∧ encode i = w

/-- R46 with the numbers of R48: the match and mask of each row and the command it makes of operand fields 5 and 1; a word
encodes a command with the match and mask of its row exactly when `(w & mask) = match`, and at most one row matches any
word. -/
def Obligations.WordDecodesExactlyWhenOneRowMatches : Prop :=
  (opcodeMap.map fun r => (r.matchWord, r.format.mask, r.build 5 1)) =
    [(0x010000000000, 0xFFFF00000000, .rbind 1), (0x020000000000, 0xFFFFFFFFFFFF, .wnew),
     (0x030000000000, 0xFFFFFFFFFFFF, .status), (0x100000000000, 0xFF00FFFFFFFF, .rread 5),
     (0x110000000000, 0xFFFFFFFFFFFF, .ralign), (0x120000000000, 0xFFFFFFFFFFFF, .ratend),
     (0x200000000000, 0xFF0000000000, .wbits 5 1), (0x210000000000, 0xFFFF00000000, .wr8 1),
     (0x220000000000, 0xFFFF00000000, .wr16 1), (0x230000000000, 0xFFFF00000000, .wr32 1),
     (0x240000000000, 0xFFFFFFFFFFFF, .walign), (0x250000000000, 0xFFFFFFFFFFFE, .wbit 1),
     (0x260000000000, 0xFFFFFFFFFFFF, .wcount), (0x270000000000, 0xFFFFFFFFFFFF, .wbegin),
     (0x280000000000, 0xFFFFFFFFFFFF, .wend), (0x290000000000, 0xFFFF00000000, .wrdbyte 1)] ∧
  (∀ w, ∀ r ∈ opcodeMap, w &&& r.format.mask = r.matchWord → decode w = .ok (r.build (CmdWord.n w) (CmdWord.imm w))) ∧
  (∀ w i, decode w = .ok i → ∃ r ∈ opcodeMap, w &&& r.format.mask = r.matchWord ∧
    i = r.build (CmdWord.n w) (CmdWord.imm w)) ∧
  (∀ w, ∀ r ∈ opcodeMap, ∀ q ∈ opcodeMap, w &&& r.format.mask = r.matchWord → w &&& q.format.mask = q.matchWord →
    r.op = q.op)

/-- R50: words with an unassigned opcode, and words with an assigned one and a must-be-zero bit set, match no command;
executing such a word raises `E_ILLEGAL` with no other state change. -/
def Obligations.IllegalWordRaisesTheFatalFault : Prop :=
  (∀ w : CmdWord, CmdWord.op w ∉ ([0x01, 0x02, 0x03, 0x10, 0x11, 0x12, 0x20, 0x21, 0x22, 0x23, 0x24, 0x25, 0x26, 0x27,
    0x28, 0x29] : List Opcode) → ∀ i, decode w ≠ .ok i) ∧
  (∀ w : CmdWord, ∀ r ∈ opcodeMap, CmdWord.op w = r.op → w &&& r.format.mask ≠ r.matchWord → ∀ i, decode w ≠ .ok i) ∧
  (∀ w s rest, s.port = .command w :: rest → s.fatal = .none → (∀ i, decode w ≠ .ok i) →
    step s = .next { s with port := rest, fatal := .eIllegal, responses := s.responses ++ [⟨.eIllegal, none⟩] })

/-! ### The step and the common checks -/

/-- A step with a command word pending runs the command it decodes to, on the state in which the host's transaction is
no longer pending (R56, R99); `withFetchWord` presents a word as the next one. That the host's transactions stand in a
list of the state is the model's choice (log 2), and so is `withFetchWord`'s reading of a number (log 21). -/
def Obligations.StepRunsTheDecodedCommand : Prop :=
  (∀ s w rest i, s.port = .command w :: rest → decode w = .ok i → step s = exec i { s with port := rest }) ∧
  (∀ (s : State) (w : CmdWord) i, decode w = .ok i → step (s.withFetchWord 48 w.toNat) = exec i s)

/-- R99: executing a command word is the five steps of `Execute(w)` in their order, in every state. -/
def Obligations.ExecuteFollowsTheOrderOfTheChecks : Prop := ∀ w s, execute w s = executeInOrder w s

/-- R93, R100: in every state every command word is answered, by exactly one response, and a response whose status is
not `OK` carries no data and changes nothing but the one register its status names. A response carries a result exactly
when the command returns data and the status is `OK` (R52). -/
def Obligations.EveryCommandWordIsAnsweredOnceAndPrecisely : Prop :=
  ∀ s w rest, s.port = .command w :: rest → ∃ t r, step s = .next t ∧ t.responses = s.responses ++ [r] ∧ t.port = rest ∧
    (r.result ≠ none ↔ r.status = .ok ∧ ∃ i, decode w = .ok i ∧ i.returnsData = true) ∧
    (r.status ≠ .ok → t = recordStatus r.status { s with port := rest, responses := s.responses ++ [⟨r.status, none⟩] })

/-- A command that completes with `OK` leaves all three fault registers unchanged, except that `RBIND` clears `R.ERR` and
`WNEW` clears `W.ERR` (a sentence of R22). -/
def Obligations.SuccessLeavesTheFaultRegisters : Prop :=
  ∀ i s t r, exec i s = .next t → t.responses = s.responses ++ [⟨.ok, r⟩] →
    t.fatal = s.fatal ∧ ((∃ len, i = .rbind len) → t.rErr = .none) ∧ ((∀ len, i ≠ .rbind len) → t.rErr = s.rErr) ∧
    (i = .wnew → t.wErr = .none) ∧ (i ≠ .wnew → t.wErr = s.wErr)

/-- R95: the status a command is answered with is the one its row of the fault table gives, and an illegal word is
answered `E_ILLEGAL`, or `E_HALTED` when the unit is fatally halted. The premise is the part of the model's invariant
the row of `WBIT` needs. It rests on the model's choice to keep the whole value field as the operand of `WBIT` (log 13),
and on the switch readings D6, that `RALIGN` and `WALIGN` on a boundary raise nothing (log 10), and D8, that the open
byte is outside the read-out (log 11). -/
def Obligations.AnswerStatusFollowsTheFaultTable : Prop :=
  (∀ i s, s.wLen ≤ s.cfg.wcap →
    ∃ t r, exec i s = .next t ∧ t.responses = s.responses ++ [r] ∧ r.status = statusOfTable i s) ∧
  (∀ w s, (∀ i, decode w ≠ .ok i) → ∃ t, execute w s = .next t ∧
    t.responses = s.responses ++ [⟨if s.fatal = .none then .eIllegal else .eHalted, none⟩])

/-- R98: what a halted unit and a halted half refuse, with no state change, and what they still execute. A width outside
1 to 32 is excluded from the refusals of a half because R99 reports it first. -/
def Obligations.HaltedUnitRefuses : Prop :=
  (∀ w s, s.fatal ≠ .none → w ≠ 0x030000000000 →
    execute w s = .next { s with responses := s.responses ++ [⟨.eHalted, none⟩] }) ∧
  (∀ i s, s.fatal = .none → i.wf = true → i.widthInvalid = false → i.isConstructor = false →
    (i.half = .reader ∧ s.rErr ≠ .none ∨ i.half = .writer ∧ s.wErr ≠ .none) →
    exec i s = .next { s with responses := s.responses ++ [⟨.eHalted, none⟩] }) ∧
  (∀ i s, s.fatal = .none → (i.isConstructor = true ∨ i = .status) → exec i s = ownPseudocode i s)

/-- R101: a recorded fault is cleared by its recovery and in no other way, whatever the step; and each recovery clears it
and does what the table says it also does. What reset keeps is the model's choice (log 17). -/
def Obligations.RecordedFaultIsClearedOnlyByItsRecovery : Prop :=
  (∀ s t, step s = .next t → s.fatal ≠ .none → t.fatal ≠ s.fatal → ∃ rest, s.port = .reset :: rest) ∧
  (∀ s t, step s = .next t → s.rErr ≠ .none → t.rErr = .none → (∃ rest, s.port = .reset :: rest) ∨
    ∃ w rest len, s.port = .command w :: rest ∧ decode w = .ok (.rbind len) ∧ s.fatal = .none ∧
      len.toNat ≤ s.cfg.rcap ∧ t.rLen = len.toNat ∧ t.rByte = 0 ∧ t.rBit = 0) ∧
  (∀ s t, step s = .next t → s.wErr ≠ .none → t.wErr = .none → (∃ rest, s.port = .reset :: rest) ∨
    ∃ w rest, s.port = .command w :: rest ∧ decode w = .ok .wnew ∧ s.fatal = .none ∧ t.wbuf = [] ∧ t.wFill = 0) ∧
  (∀ s rest, s.port = .reset :: rest → step s = .next { State.reset with
    cfg := s.cfg, src := s.src, powerUp := s.powerUp, port := rest, responses := s.responses }) ∧
  (∀ len s, s.fatal = .none → len.toNat ≤ s.cfg.rcap → ∃ t, exec (.rbind len) s = .next t ∧ t.rErr = .none) ∧
  (∀ s, s.fatal = .none → ∃ t, exec .wnew s = .next t ∧ t.wErr = .none)

/-- R51: a width outside 1 to 32 is a legal encoding of `RREAD` and `WBITS` that raises the fatal `E_WIDTH` even when the
half is halted, and no other command can be answered `E_WIDTH`. -/
def Obligations.InvalidWidthIsFatal : Prop :=
  (∀ n imm, (∃ w, decode w = .ok (.rread n)) ∧ ∃ w, decode w = .ok (.wbits n imm)) ∧
  (∀ n imm s, ¬ legalWidth n → s.fatal = .none →
    exec (.rread n) s = .next { s with fatal := .eWidth, responses := s.responses ++ [⟨.eWidth, none⟩] } ∧
    exec (.wbits n imm) s = .next { s with fatal := .eWidth, responses := s.responses ++ [⟨.eWidth, none⟩] }) ∧
  (∀ i s t, i.widthInvalid = false → exec i s = .next t → t.responses ≠ s.responses ++ [⟨.eWidth, none⟩])

/-! ### Independence -/

/-- A command changes no register or buffer of the other half, and no command changes `SRC`, the parameters or what is
pending at the port (R29, R30, R126: "changes no writer register", "changes no reader register"). -/
def Obligations.CommandsLeaveTheOtherHalfAndSrcAlone : Prop :=
  ∀ i s t, exec i s = .next t →
    (i.half ≠ .writer → t.wbuf = s.wbuf ∧ t.wFill = s.wFill ∧ t.wAcc = s.wAcc ∧ t.wErr = s.wErr) ∧
    (i.half ≠ .reader → t.rByte = s.rByte ∧ t.rBit = s.rBit ∧ t.rLen = s.rLen ∧ t.rErr = s.rErr) ∧
    (∀ a, srcByte t a = srcByte s a) ∧ t.src = s.src ∧ t.cfg = s.cfg ∧ t.powerUp = s.powerUp ∧ t.port = s.port

/-- A command to one half never reads the other half: its response and its whole effect are the same whatever the other
half holds (R29). -/
def Obligations.HalvesDoNotInfluenceEachOther : Prop :=
  (∀ i s t buf fill acc err, i.half = .reader → exec i s = .next t →
    exec i { s with wbuf := buf, wFill := fill, wAcc := acc, wErr := err } =
      .next { t with wbuf := buf, wFill := fill, wAcc := acc, wErr := err }) ∧
  (∀ i s t byte bit len err mem draw, i.half = .writer → exec i s = .next t →
    exec i { s with rByte := byte, rBit := bit, rLen := len, rErr := err, src := mem, powerUp := draw } =
      .next { t with rByte := byte, rBit := bit, rLen := len, rErr := err, src := mem, powerUp := draw })

/-- `RREAD` reads no byte that holds none of its bits, and none at or beyond index `R.LEN`: two source memories that agree
on the bytes it reads give the same response and the same effect, whatever else they hold and whatever never-written
bytes read as (R37, R44). -/
def Obligations.RreadDependsOnlyOnTheBytesOfItsBits : Prop :=
  ∀ n s t mem draw, (∀ a < s.rLen, s.rByte ≤ a → 8 * a < s.rp + n.toNat →
      srcByte { s with src := mem, powerUp := draw } a = srcByte s a) →
    exec (.rread n) s = .next t →
    exec (.rread n) { s with src := mem, powerUp := draw } = .next { t with src := mem, powerUp := draw }

/-- R38 and the monotonicity of R126: along any list of commands without `WNEW` the snapshot only grows by appending and
`WP` never decreases, and along any list without `RBIND` `RP` never decreases. -/
def Obligations.SnapshotOnlyGrowsWithinASession : Prop :=
  ∀ is s t, runCommands is s = .next t →
    ((∀ i ∈ is, i ≠ .wnew) → snapshot s <+: snapshot t ∧ s.wp ≤ t.wp) ∧
    ((∀ i ∈ is, ∀ len, i ≠ .rbind len) → s.rp ≤ t.rp)

/-! ### Reset and invariants -/

/-- R27: every register after reset holds the value of its "reset" column, and no index of `WBUF` is readable. -/
def Obligations.ResetStateHoldsTheResetValues : Prop :=
  State.reset.rByte = 0 ∧ State.reset.rBit = 0 ∧ State.reset.rLen = 0 ∧ State.reset.rErr.code = 0 ∧
  State.reset.wLen = 0 ∧ State.reset.wFill = 0 ∧ State.reset.wAcc = 0x00 ∧ State.reset.wErr.code = 0 ∧
  State.reset.fatal.code = 0 ∧ statusWord State.reset = 0 ∧ ∀ a, memReadWbuf State.reset a = none

/-- R110, R111: the reset transaction sets every register to its reset value and writes no source byte; after it the
reader is bound over the empty buffer and the writer is fresh; and nothing else clears `FATAL`. That the parameters, the
transactions still pending and the responses sent stay is the model's choice (log 17). -/
def Obligations.ResetTransactionSetsEveryRegister : Prop :=
  (∀ s rest, s.port = .reset :: rest → ∃ t, step s = .next t ∧
    t.rByte = 0 ∧ t.rBit = 0 ∧ t.rLen = 0 ∧ t.wLen = 0 ∧ t.wFill = 0 ∧ t.wAcc = 0x00 ∧ t.NoFault ∧
    t.BoundOver [] ∧ t.FreshWriter ∧ (∀ a, memReadWbuf t a = none) ∧ (∀ a, srcByte t a = srcByte s a) ∧
    t.cfg = s.cfg ∧ t.port = rest ∧ t.responses = s.responses) ∧
  (∀ s t, step s = .next t → s.fatal ≠ .none → t.fatal = .none → ∃ rest, s.port = .reset :: rest)

/-- The state after reset satisfies the launch premises of R114, with the model's memory invariant. -/
def Obligations.ResetStateMeetsTheLaunchPremises : Prop :=
  State.reset.NoFault ∧ State.reset.FreshWriter ∧ State.reset.BoundOver [] ∧ State.reset.AtStart ∧
  State.reset.WellFormed ∧ State.reset.Final

/-- Every step, of a command or of the host, keeps `WellFormed`: both invariants, both lengths within their capacities,
and source memory in its canonical form (R114: "Every command preserves `WellFormed`"). -/
def Obligations.StepKeepsWellFormed : Prop := ∀ s t, s.WellFormed → step s = .next t → t.WellFormed

/-- R13: the reader invariant, true after reset, preserved by every step, and equivalent to `RP <= 8 * R.LEN`. -/
def Obligations.ReaderInvariantHolds : Prop :=
  State.reset.ReaderInv ∧ (∀ s t, s.ReaderInv → step s = .next t → t.ReaderInv) ∧
  ∀ s : State, s.ReaderInv ↔ s.rp ≤ 8 * s.rLen

/-- R17: the unfilled bits of the open byte are zero after reset and after every step, and an open byte with no filled bit
is 0x00; and bits fill it from the top: one bit written into it stands at `W.ACC[7 - W.FILL]`, the others staying. -/
def Obligations.OpenByteStaysZeroPadded : Prop :=
  State.reset.WriterInv ∧ (∀ s t, s.WriterInv → step s = .next t → t.WriterInv) ∧
  (∀ s : State, s.WriterInv → s.wFill = 0 → s.wAcc = 0x00) ∧
  ∀ (imm : Word) s, s.fatal = .none → s.wErr = .none → s.WriterInv → s.wLen ≤ s.cfg.wcap →
    imm.toNat ≤ 1 → s.wFill ≠ 7 → ∃ t,
    exec (.wbit imm) s = .next t ∧ t.wbuf = s.wbuf ∧ t.wFill.val = s.wFill.val + 1 ∧
      ∀ k < 8, t.wAcc.getLsbD k = if k = 7 - s.wFill.val then decide (imm = 1) else s.wAcc.getLsbD k

/-! ### The reader half -/

/-- R60: `RBIND len` starts a session over `SRC[0 .. len-1]` at cursor (0, 0), even when the reader half is halted, and
raises `E_BIND` with no other state change when `len > RCAP`. -/
def Obligations.RbindStartsAReaderSession : Prop :=
  ∀ len s, s.fatal = .none →
    (len.toNat ≤ s.cfg.rcap → ∃ t, exec (.rbind len) s = .next t ∧
      t = { s with rLen := len.toNat, rByte := 0, rBit := 0, rErr := .none, responses := s.responses ++ [⟨.ok, none⟩] } ∧
      t.rBits = bytesBits ((List.range len.toNat).map (srcByte s)) ∧ t.rp = 0) ∧
    (s.cfg.rcap < len.toNat →
      exec (.rbind len) s = .next { s with rErr := .eBind, responses := s.responses ++ [⟨.eBind, none⟩] })

/-- R63: `RREAD n` completes exactly as its closed form says, in both of the spec's writings: the sum over `SrcBit`, and
the slice of the big-endian number of the bytes it touches; the cursor moves to linear position `p + n` and nothing else
changes. -/
def Obligations.RreadReturnsTheNextField : Prop :=
  ∀ (n : Width) s, s.fatal = .none → s.rErr = .none → legalWidth n → s.rp + n.toNat ≤ 8 * s.rLen →
    ∃ d : Word, exec (.rread n) s = .next { s with
        rByte := (s.rp + n.toNat) / 8, rBit := Fin.ofNat 8 (s.rp + n.toNat)
        responses := s.responses ++ [⟨.ok, some d⟩] } ∧
      d.toNat = ∑ i ∈ Finset.range n.toNat, srcBit s (s.rp + i) * 2 ^ (n.toNat - 1 - i) ∧
      let m := (s.rp + n.toNat - 1) / 8 - s.rp / 8 + 1
      let big := bytesValue ((List.range m).map fun j => srcByte s (s.rp / 8 + j))
      1 ≤ m ∧ m ≤ 5 ∧ d.toNat = big / 2 ^ (8 * m - s.rp % 8 - n.toNat) % 2 ^ n.toNat

/-- A read that would pass the end of the bound buffer raises `E_OOR`: the cursor is unchanged, no bit is consumed, no
data is returned (R62). -/
def Obligations.ReadPastTheEndConsumesNothing : Prop :=
  ∀ (n : Width) s, s.fatal = .none → s.rErr = .none → legalWidth n → 8 * s.rLen < s.rp + n.toNat →
    exec (.rread n) s = .next { s with rErr := .eOor, responses := s.responses ++ [⟨.eOor, none⟩] }

/-- R64: `RALIGN` moves the cursor to the smallest multiple of 8 at or after it, so that it does nothing on a byte
boundary (the reading D6 fixes, log 10), and stays inside the bound buffer. -/
def Obligations.RalignMovesToTheBoundaryAtOrAfter : Prop :=
  ∀ s, s.fatal = .none → s.rErr = .none → ∃ t, exec .ralign s = .next t ∧
    t = { s with rByte := t.rByte, rBit := 0, responses := s.responses ++ [⟨.ok, none⟩] } ∧
    s.rp ≤ t.rp ∧ t.rp < s.rp + 8 ∧ (s.ReaderInv → t.rp ≤ 8 * t.rLen)

/-- R65: `RATEND` answers 1 exactly when no unread bit remains, else 0, and changes no state (the reading D9 fixes,
log 12). -/
def Obligations.RatendTellsWhetherABitRemains : Prop :=
  ∀ s, s.fatal = .none → s.rErr = .none → s.ReaderInv → ∃ d : Word,
    exec .ratend s = .next { s with responses := s.responses ++ [⟨.ok, some d⟩] } ∧
    (d = 1 ↔ s.rp = 8 * s.rLen) ∧ (d = 0 ↔ s.rp < 8 * s.rLen)

/-! ### The writer half -/

/-- R70: `WNEW` empties the writer and clears its fault, even when the writer half is halted. -/
def Obligations.WnewStartsAWriterSession : Prop :=
  ∀ s, s.fatal = .none → ∃ t, exec .wnew s = .next t ∧
    t = { s with wbuf := [], wFill := 0, wAcc := 0x00, wErr := .none, responses := s.responses ++ [⟨.ok, none⟩] } ∧
    t.wBits = [] ∧ snapshot t = []

/-- R73: every field write (`WBITS`, `WR8`, `WR16`, `WR32`, `WBIT`) that fits completes exactly as its closed form says: the
committed bytes, the fill count and the open byte are those of the number `X`, `WBits` grows by `bits_n(v)`, and nothing
else changes, no committed byte among them. -/
def Obligations.FieldWriteCompletesAsItsClosedForm : Prop :=
  ∀ i n s, i.wf = true → i.widthInvalid = false → i.writeWidth = some n → s.fatal = .none → s.wErr = .none →
    s.WriterInv → (s.wp + n) / 8 ≤ s.cfg.wcap →
    let f := s.wFill.val
    let x := s.wAcc.toNat / 2 ^ (8 - f) * 2 ^ n + lowBits n i.valueField
    let c := (f + n) / 8
    let r := (f + n) % 8
    ∃ t, exec i s = .next t ∧
      t = { s with
        wbuf := s.wbuf ++ (List.range c).map fun j => BitVec.ofNat 8 (x / 2 ^ (f + n - 8 * (j + 1)))
        wFill := Fin.ofNat 8 r
        wAcc := BitVec.ofNat 8 (x % 2 ^ r * 2 ^ (8 - r))
        responses := s.responses ++ [⟨.ok, none⟩] } ∧
      t.wBits = s.wBits ++ fieldBits n i.valueField

/-- The fixed-width writes are field writes of their width, in every state, faults and refusals included (R74, R75, R76,
R78, D14). -/
def Obligations.FixedWidthWritesAreFieldWrites : Prop :=
  ∀ imm s, exec (.wr8 imm) s = exec (.wbits 8 imm) s ∧ exec (.wr16 imm) s = exec (.wbits 16 imm) s ∧
    exec (.wr32 imm) s = exec (.wbits 32 imm) s ∧ (imm.toNat ≤ 1 → exec (.wbit imm) s = exec (.wbits 1 imm) s)

/-- On an aligned writer `WR8`, `WR16` and `WR32` commit the bytes of their operand, most significant byte first; at any
fill count they commit exactly one, two and four bytes and leave `W.FILL` unchanged (R35, R74, R75, R76). -/
def Obligations.FixedWidthWritesCommitBigEndianBytes : Prop :=
  (∀ (imm : Word) s, s.fatal = .none → s.wErr = .none → s.wFill = 0 → s.wAcc = 0x00 →
    (s.wLen + 1 ≤ s.cfg.wcap → exec (.wr8 imm) s = .next { s with
      wbuf := s.wbuf ++ [imm.extractLsb' 0 8], responses := s.responses ++ [⟨.ok, none⟩] }) ∧
    (s.wLen + 2 ≤ s.cfg.wcap → exec (.wr16 imm) s = .next { s with
      wbuf := s.wbuf ++ [imm.extractLsb' 8 8, imm.extractLsb' 0 8], responses := s.responses ++ [⟨.ok, none⟩] }) ∧
    (s.wLen + 4 ≤ s.cfg.wcap → exec (.wr32 imm) s = .next { s with
      wbuf := s.wbuf ++ [imm.extractLsb' 24 8, imm.extractLsb' 16 8, imm.extractLsb' 8 8, imm.extractLsb' 0 8],
      responses := s.responses ++ [⟨.ok, none⟩] })) ∧
  (∀ (imm : Word) s, s.fatal = .none → s.wErr = .none →
    (s.wLen + 1 ≤ s.cfg.wcap → ∃ t, exec (.wr8 imm) s = .next t ∧ t.wLen = s.wLen + 1 ∧ t.wFill = s.wFill) ∧
    (s.wLen + 2 ≤ s.cfg.wcap → ∃ t, exec (.wr16 imm) s = .next t ∧ t.wLen = s.wLen + 2 ∧ t.wFill = s.wFill) ∧
    (s.wLen + 4 ≤ s.cfg.wcap → ∃ t, exec (.wr32 imm) s = .next t ∧ t.wLen = s.wLen + 4 ∧ t.wFill = s.wFill))

/-- A write or `WALIGN` that would commit a byte beyond `WCAP` raises `E_WOVF` before anything is written (R72, R77). -/
def Obligations.WriteBeyondCapacityWritesNothing : Prop :=
  (∀ i k s, i.wf = true → i.widthInvalid = false → i.writeWidth = some k → s.fatal = .none → s.wErr = .none →
    s.cfg.wcap < (s.wp + k) / 8 →
    exec i s = .next { s with wErr := .eWovf, responses := s.responses ++ [⟨.eWovf, none⟩] }) ∧
  (∀ s, s.fatal = .none → s.wErr = .none → s.wFill ≠ 0 → s.cfg.wcap < s.wLen + 1 →
    exec .walign s = .next { s with wErr := .eWovf, responses := s.responses ++ [⟨.eWovf, none⟩] })

/-- R77: `WALIGN` commits the open byte, zero-padded, and does nothing on a byte boundary (the reading D6 fixes,
log 10). -/
def Obligations.WalignPadsTheOpenByte : Prop :=
  ∀ s, s.fatal = .none → s.wErr = .none → s.WriterInv → (s.wFill ≠ 0 → s.wLen + 1 ≤ s.cfg.wcap) →
    ∃ t, exec .walign s = .next t ∧
      t = { s with
        wbuf := if s.wFill = 0 then s.wbuf else s.wbuf ++ [s.wAcc], wFill := 0, wAcc := 0x00
        responses := s.responses ++ [⟨.ok, none⟩] } ∧
      t.wBits = s.wBits ++ List.replicate ((8 - s.wFill.val) % 8) false

/-- R79, R85, R86, R87: `WCOUNT` and `WEND` return the number of committed bytes, `WBEGIN` returns 0, and `WRDBYTE`
returns the committed byte at its index, zero-extended; none of them changes any state, and the open byte is neither
counted nor read (the reading D7 and D8 fix, log 11). The bound on `W.LEN` is part of the model's invariant. -/
def Obligations.CountAndReadOutChangeNothing : Prop :=
  ∀ s, s.fatal = .none → s.wErr = .none → s.wLen ≤ 2 ^ 32 - 1 →
    (∃ d : Word, d.toNat = s.wLen ∧
      exec .wcount s = .next { s with responses := s.responses ++ [⟨.ok, some d⟩] } ∧
      exec .wend s = .next { s with responses := s.responses ++ [⟨.ok, some d⟩] }) ∧
    exec .wbegin s = .next { s with responses := s.responses ++ [⟨.ok, some 0⟩] } ∧
    ∀ idx : Word, idx.toNat < s.wLen → ∃ (b : Byte) (d : Word), (snapshot s)[idx.toNat]? = some b ∧ d.toNat = b.toNat ∧
      exec (.wrdbyte idx) s = .next { s with responses := s.responses ++ [⟨.ok, some d⟩] }

/-- Reading out an index at or above `W.LEN`, the one `WEND` returns among them, raises `E_WIDX` and returns no value
(R87). That the index `W.LEN` faults while a byte is open is the switch reading D8 (log 11). -/
def Obligations.ReadOutOutsideTheSnapshotFaults : Prop :=
  ∀ (idx : Word) s, s.fatal = .none → s.wErr = .none → s.wLen ≤ idx.toNat →
    exec (.wrdbyte idx) s = .next { s with wErr := .eWidx, responses := s.responses ++ [⟨.eWidx, none⟩] }

/-- R88: the read-out sequence, from `WBEGIN` to `WEND`, completes, changes no state and yields the snapshot. That `WEND`
and `WCOUNT` give `W.LEN` while a byte is open is the switch reading D7 and D8 (log 11). The bound on `W.LEN` is part of
the model's invariant. -/
def Obligations.IterationYieldsTheSnapshot : Prop :=
  ∀ s, s.fatal = .none → s.wErr = .none → s.wLen ≤ 2 ^ 32 - 1 →
    runCommands ([.wbegin, .wend] ++ (List.range s.wLen).map fun k => .wrdbyte (BitVec.ofNat 32 k)) s = .next { s with
      responses := s.responses ++ [⟨.ok, some 0⟩, ⟨.ok, some (BitVec.ofNat 32 s.wLen)⟩] ++
        (snapshot s).map fun b => ⟨.ok, some (b.setWidth 32)⟩ } ∧
    exec .wcount s = .next { s with responses := s.responses ++ [⟨.ok, some (BitVec.ofNat 32 s.wLen)⟩] }

/-- R89 with the fields of R23 and their legal values (R14, R18, R19): `STATUS` is executed in every state, returns the
three fault registers and changes no state; a word with its opcode that is not exactly it is illegal, or refused by a
fatally halted unit. -/
def Obligations.StatusReportsTheFaultRegisters : Prop :=
  (∀ s, ∃ d : Word, exec .status s = .next { s with responses := s.responses ++ [⟨.ok, some d⟩] } ∧
    execute 0x030000000000 s = exec .status s ∧
    d.extractLsb' 0 4 = (match s.rErr with | .none => 0 | .eOor => 3 | .eBind => 4) ∧
    d.extractLsb' 4 4 = (match s.wErr with | .none => 0 | .eWovf => 5 | .eWidx => 6) ∧
    d.extractLsb' 8 4 = (match s.fatal with | .none => 0 | .eIllegal => 1 | .eWidth => 2) ∧
    d.extractLsb' 12 20 = 0) ∧
  (∀ w s, CmdWord.op w = 0x03 → w ≠ 0x030000000000 → execute w s =
    if s.fatal = .none then .next { s with fatal := .eIllegal, responses := s.responses ++ [⟨.eIllegal, none⟩] }
    else .next { s with responses := s.responses ++ [⟨.eHalted, none⟩] })

/-! ### Laws -/

/-- R125: aligning twice is aligning once; after `WALIGN` the open byte is empty; `WALIGN` at fill count `f` is
`WBITS 8-f, 0`, in every state. That the second alignment changes nothing is the switch reading D6 (log 10). -/
def Obligations.AlignmentLaws : Prop :=
  (∀ s t, exec .ralign s = .next t → ∃ r, exec .ralign t = .next { t with responses := t.responses ++ [r] }) ∧
  (∀ s t, exec .walign s = .next t → ∃ r, exec .walign t = .next { t with responses := t.responses ++ [r] }) ∧
  (∀ s t, s.WriterInv → exec .walign s = .next t → t.responses = s.responses ++ [⟨.ok, none⟩] →
    t.wFill = 0 ∧ t.wAcc = 0x00) ∧
  (∀ s, s.wFill ≠ 0 → exec .walign s = exec (.wbits (BitVec.ofNat 8 (8 - s.wFill.val)) 0) s)

/-- R120: how far each command that completes moves `RP` and `WP`; and after any sequence of writes from a fresh writer
that raises no fault, `W.LEN` and `W.FILL` are the quotient and remainder of the sum of the widths. That `RALIGN` and
`WALIGN` stay where they are on a boundary is the switch reading D6 (log 10). -/
def Obligations.PositionLaw : Prop :=
  (∀ i s t r, exec i s = .next t → t.responses = s.responses ++ [⟨.ok, r⟩] →
    (∀ n, i = .rread n → t.rp = s.rp + n.toNat) ∧ (∀ k, i.writeWidth = some k → t.wp = s.wp + k) ∧
    (i = .ralign → t.rp = (s.rp + 7) / 8 * 8) ∧ (i = .walign → t.wp = (s.wp + 7) / 8 * 8) ∧
    (i = .ratend ∨ i = .wcount ∨ i = .wbegin ∨ i = .wend ∨ (∃ idx, i = .wrdbyte idx) ∨ i = .status →
      t.rp = s.rp ∧ t.wp = s.wp)) ∧
  (∀ is s t, s.FreshWriter → (∀ i ∈ is, i.writeWidth ≠ none) → runCommands is s = .next t →
    t.fatal = .none → t.wErr = .none →
    t.wLen = (is.filterMap Instr.writeWidth).sum / 8 ∧ t.wFill.val = (is.filterMap Instr.writeWidth).sum % 8)

/-- R121, the concatenation property: fields whose widths sum to a multiple of 8, written from a fresh writer with no
alignment, produce exactly that many bytes, packed most significant bit first with no gaps. -/
def Obligations.ConcatenationProperty : Prop :=
  ∀ fs s, s.fatal = .none → s.FreshWriter → (∀ f ∈ fs, legalWidth f.1) → totalBits fs % 8 = 0 →
    totalBits fs / 8 ≤ s.cfg.wcap →
    ∃ t, runCommands (writeFields fs) s = .next t ∧ t.fatal = .none ∧ t.wErr = .none ∧ t.wFill = 0 ∧
      bytesBits (snapshot t) = fieldsBits fs ∧ (snapshot t).length = totalBits fs / 8 ∧
      exec .wcount t = .next { t with responses := t.responses ++ [⟨.ok, some (BitVec.ofNat 32 (totalBits fs / 8))⟩] }

/-- R122, the bit-order property: a field of up to 8 bits and `WALIGN` from a fresh writer give the single byte
`low_n(v) << (8 - n)`; for `WBITS 4, 0b1011` that is 0xB0. At `n = 8` the `WALIGN` stands on a boundary, where it adds no
byte by the switch reading D6 (log 10). -/
def Obligations.BitOrderProperty : Prop :=
  (∀ (n : Width) v s, s.fatal = .none → s.FreshWriter → 1 ≤ n.toNat → n.toNat ≤ 8 → 1 ≤ s.cfg.wcap →
    ∃ t, runCommands [.wbits n v, .walign] s = .next t ∧ t.wErr = .none ∧ t.fatal = .none ∧
      snapshot t = [BitVec.ofNat 8 (lowBits n.toNat v * 2 ^ (8 - n.toNat))]) ∧
  (∀ s, s.fatal = .none → s.FreshWriter → 1 ≤ s.cfg.wcap →
    ∃ t, runCommands [.wbits 4 0b1011, .walign] s = .next t ∧ snapshot t = [0xB0])

/-- R123, write then read: fields written from a fresh writer and aligned, then read with the same widths by a reader bound
over the resulting bytes, come back in order, and the reader is then at the end. Where the widths sum to a multiple of 8
the alignments stand on a boundary, where they do nothing by the switch reading D6 (log 10); that `RATEND` then answers 1
is the switch reading D9 (log 12). -/
def Obligations.WriteThenReadRoundTrip : Prop :=
  ∀ fs s, s.fatal = .none → s.FreshWriter → (∀ f ∈ fs, legalWidth f.1) → (totalBits fs + 7) / 8 ≤ s.cfg.wcap →
    ∃ t, runCommands (writeFields fs ++ [.walign]) s = .next t ∧ t.fatal = .none ∧ t.wErr = .none ∧
      ∀ q : State, q.fatal = .none → q.BoundOver (snapshot t) → q.AtStart →
        ∃ u, runCommands (readFields (fs.map Prod.fst) ++ [.ralign, .ratend]) q = .next u ∧
          u.responses = q.responses ++ fs.map (fun f => ⟨.ok, some (BitVec.ofNat 32 (lowBits f.1.toNat f.2))⟩) ++
            [⟨.ok, none⟩, ⟨.ok, some 1⟩]

/-- R124, read then write: bytes read with any split into widths of 1 to 32, and the values written back with the same
widths by a fresh writer, reproduce the bytes. -/
def Obligations.ReadThenWriteRoundTrip : Prop :=
  ∀ (bytes : List Byte) (ws : List Width) (q : State), q.fatal = .none → q.BoundOver bytes → q.AtStart →
    (∀ n ∈ ws, legalWidth n) → (ws.map BitVec.toNat).sum = 8 * bytes.length →
    ∃ u ds, runCommands (readFields ws) q = .next u ∧ ds.length = ws.length ∧
      u.responses = q.responses ++ ds.map (fun d => ⟨.ok, some d⟩) ∧
      ∀ s : State, s.fatal = .none → s.FreshWriter → bytes.length ≤ s.cfg.wcap →
        ∃ t, runCommands (writeFields (ws.zip ds)) s = .next t ∧ t.fatal = .none ∧ t.wErr = .none ∧ t.wFill = 0 ∧
          snapshot t = bytes

/-! ### The host -/

/-- A source write at an index at or above `R.LEN` changes that one byte of `SRC` and nothing else (R43). Below `R.LEN`,
where the host must not write, the model refuses (U2, log 8); at or above `RCAP` there is no byte and the model faults
(R30, log 8). -/
def Obligations.SourceWriteChangesOneByte : Prop :=
  ∀ s a b rest, s.port = .sourceWrite a b :: rest →
    (s.rLen ≤ a → a < s.cfg.rcap → ∃ t, step s = .next t ∧ t = { s with port := rest, src := t.src } ∧
      ∀ x, srcByte t x = if x = a then b else srcByte s x) ∧
    (a < s.rLen → step s = .refused .sourceWriteBound) ∧
    (s.rLen ≤ a → s.cfg.rcap ≤ a → step s = .fault .sourceIndexOutside)

/-! ### The assembler -/

/-- Every line that assembles gives a well-formed command, whose word decodes back to it (R54). -/
def Obligations.AssembledCommandsAreWellFormed : Prop :=
  ∀ line i, assembleLine line = .ok (some i) → i.wf = true ∧ decode (encode i) = .ok i

/-- R54: an operand that does not fit its field is rejected, and a width of 0 or above 32 is not; `WBITS` takes its width
first and its value second. All eight mnemonics that take operands. -/
def Obligations.OperandsThatDoNotFitAreRejected : Prop :=
  ∀ n v,
    assembleNamed ['R', 'R', 'E', 'A', 'D'] [n] =
      (if n ≤ 255 then .ok (.rread (BitVec.ofNat 8 n)) else .error .operandTooLarge) ∧
    assembleNamed ['W', 'B', 'I', 'T', 'S'] [n, v] =
      (if n ≤ 255 ∧ v ≤ 0xFFFFFFFF then .ok (.wbits (BitVec.ofNat 8 n) (BitVec.ofNat 32 v))
        else .error .operandTooLarge) ∧
    assembleNamed ['R', 'B', 'I', 'N', 'D'] [v] =
      (if v ≤ 0xFFFFFFFF then .ok (.rbind (BitVec.ofNat 32 v)) else .error .operandTooLarge) ∧
    assembleNamed ['W', 'R', '8'] [v] =
      (if v ≤ 0xFFFFFFFF then .ok (.wr8 (BitVec.ofNat 32 v)) else .error .operandTooLarge) ∧
    assembleNamed ['W', 'R', '1', '6'] [v] =
      (if v ≤ 0xFFFFFFFF then .ok (.wr16 (BitVec.ofNat 32 v)) else .error .operandTooLarge) ∧
    assembleNamed ['W', 'R', '3', '2'] [v] =
      (if v ≤ 0xFFFFFFFF then .ok (.wr32 (BitVec.ofNat 32 v)) else .error .operandTooLarge) ∧
    assembleNamed ['W', 'R', 'D', 'B', 'Y', 'T', 'E'] [v] =
      (if v ≤ 0xFFFFFFFF then .ok (.wrdbyte (BitVec.ofNat 32 v)) else .error .operandTooLarge) ∧
    assembleNamed ['W', 'B', 'I', 'T'] [v] =
      (if v ≤ 1 then .ok (.wbit (BitVec.ofNat 32 v)) else .error .operandTooLarge)

/-- R55: each name of the document, and `RUNBIND`, assembles as the command beside it, for every operand list; the
operands of `WriteBits` swap places. -/
def Obligations.DocumentNamesAssembleAsTheirCommands : Prop :=
  (∀ ops, assembleNamed ['R', 'e', 'a', 'd', 'B', 'i', 't', 's'] ops = assembleNamed ['R', 'R', 'E', 'A', 'D'] ops ∧
    assembleNamed ['A', 'd', 'v', 'a', 'n', 'c', 'e', 'N', 'e', 'x', 't', 'B', 'y', 't', 'e'] ops =
      assembleNamed ['W', 'A', 'L', 'I', 'G', 'N'] ops ∧
    assembleNamed ['W', 'r', 'i', 't', 'e', '8'] ops = assembleNamed ['W', 'R', '8'] ops ∧
    assembleNamed ['W', 'r', 'i', 't', 'e', '1', '6'] ops = assembleNamed ['W', 'R', '1', '6'] ops ∧
    assembleNamed ['W', 'r', 'i', 't', 'e', '3', '2'] ops = assembleNamed ['W', 'R', '3', '2'] ops ∧
    assembleNamed ['S', 'e', 't', 'N', 'e', 'x', 't', 'B', 'i', 't'] ops = assembleNamed ['W', 'B', 'I', 'T'] ops ∧
    assembleNamed ['G', 'e', 't', 'B', 'y', 't', 'e', 'C', 'o', 'u', 'n', 't'] ops =
      assembleNamed ['W', 'C', 'O', 'U', 'N', 'T'] ops ∧
    assembleNamed ['B', 'e', 'g', 'i', 'n'] ops = assembleNamed ['W', 'B', 'E', 'G', 'I', 'N'] ops ∧
    assembleNamed ['E', 'n', 'd'] ops = assembleNamed ['W', 'E', 'N', 'D'] ops) ∧
  (∀ v n, assembleNamed ['W', 'r', 'i', 't', 'e', 'B', 'i', 't', 's'] [v, n] =
    assembleNamed ['W', 'B', 'I', 'T', 'S'] [n, v]) ∧
  assembleNamed ['R', 'U', 'N', 'B', 'I', 'N', 'D'] [] = assembleNamed ['R', 'B', 'I', 'N', 'D'] [0]

/-- R54: the line written for a command, its mnemonic and its operands as numbers in any of the three radixes, blanks and a
comment after it, assembles to that command; a line of a document name, or with operands that do not fit, to what the
name gives with those operands; and the example lines of R54's table to their words. That blanks alone may stand between
the line and its comment is the model's choice (log 19). -/
def Obligations.WrittenLinesAssembleToTheirCommands : Prop :=
  (∀ (i : Instr) ops remark, i.wf = true → ops.map Prod.snd = instrOperands i →
    (∀ c ∈ remark.takeWhile (fun c => c != ';'), asmBlank c = true) →
    assembleLine (lineText (instrMnemonic i) ops ++ remark) = .ok (some i)) ∧
  (∀ name ∈ asmNames.map Prod.fst, ∀ ops remark, (∀ c ∈ remark.takeWhile (fun c => c != ';'), asmBlank c = true) →
    assembleLine (lineText name ops ++ remark) = (assembleNamed name (ops.map Prod.snd)).map some) ∧
  (assembleLine ['W', 'A', 'L', 'I', 'G', 'N']).map (Option.map encode) = .ok (some 0x240000000000) ∧
  (assembleLine ['R', 'R', 'E', 'A', 'D', ' ', '1', '1']).map (Option.map encode) = .ok (some 0x100B00000000) ∧
  (assembleLine ['W', 'B', 'I', 'T', 'S', ' ', '4', ',', ' ', '0', 'b', '1', '0', '1', '1']).map (Option.map encode) =
    .ok (some 0x20040000000B) ∧
  (assembleLine ['W', 'R', '1', '6', ' ', '0', 'x', 'B', 'E', 'E', 'F']).map (Option.map encode) =
    .ok (some 0x22000000BEEF) ∧
  (assembleLine ['W', 'B', 'I', 'T', ' ', '1']).map (Option.map encode) = .ok (some 0x250000000001)

/-! ### Codes -/

/-- The numbers of R96's table: the code of every status; the code a fault leaves in the register the table names (R97,
R100); and the 36 bits of a response (R52). That the status stands above the data in one word is the model's choice
(log 22). -/
def Obligations.CodesAreTheNumbersOfTheTable : Prop :=
  ([Status.ok, .eIllegal, .eWidth, .eOor, .eBind, .eWovf, .eWidx, .eHalted].map Status.code = [0, 1, 2, 3, 4, 5, 6, 7]) ∧
  (∀ s : State, (raise .eIllegal s).fatal.code = 1 ∧ (raise .eWidth s).fatal.code = 2 ∧ (raise .eOor s).rErr.code = 3 ∧
    (raise .eBind s).rErr.code = 4 ∧ (raise .eWovf s).wErr.code = 5 ∧ (raise .eWidx s).wErr.code = 6) ∧
  (∀ f s, (raise f s).responses.map Response.pins =
    s.responses.map Response.pins ++ [f.status.code ++ (0 : Word)]) ∧
  ∀ r : Response, r.pins.extractLsb' 32 4 = r.status.code ∧
    r.pins.extractLsb' 0 32 = match r.result with | some d => d | none => 0
end

