-- ==== Sys2Proof/Laws/Assembler.lean ====
section
/-! SUPPORT. Reading a written line: numbers, operand lists and whole lines come back as they were written. -/

namespace Sys2Proof.Machine

/-! ### Numbers -/

theorem digitValue_digitChar : ∀ d < 16, digitValue (Nat.digitChar d) = some d := by decide

theorem digitValue_capital : ∀ d < 16, digitValue (Nat.digitChar d).toUpper = some d := by decide

theorem digitsValue_append_one (b v : Nat) (cs : List Char) (c : Char) : digitsValue b v (cs ++ [c]) =
    (digitsValue b v cs).bind fun n => (digitValue c).bind fun d => if d < b then some (n * b + d) else none := by
  induction cs generalizing v with
  | nil =>
    simp only [List.nil_append, digitsValue, Option.bind_some]
    cases digitValue c <;> rfl
  | cons a cs ih =>
    simp only [List.cons_append, digitsValue]
    cases digitValue a with
    | none => rfl
    | some d =>
      simp only []
      split
      · exact ih _
      · rfl

/-- The digits of a number read back, whichever of two digit alphabets writes them. -/
theorem digitsValue_map_toDigits {b : Nat} (f : Char → Char) (hf : ∀ d < 16, digitValue (f (Nat.digitChar d)) = some d)
    (hb : 1 < b) (hb' : b ≤ 16) (n : Nat) : digitsValue b 0 ((Nat.toDigits b n).map f) = some n := by
  induction n using Nat.strongRecOn with
  | ind n ih =>
    by_cases h : n < b
    · rw [Nat.toDigits_of_lt_base h]
      simp [digitsValue, hf n (by omega), h]
    · have hlt : n % b < b := Nat.mod_lt _ (by omega)
      rw [Nat.toDigits_of_base_le hb (by omega), List.map_append, List.map_singleton, digitsValue_append_one,
        ih _ (Nat.div_lt_self (by omega) hb), Option.bind_some, hf _ (by omega), Option.bind_some, if_pos hlt,
        Nat.div_add_mod']

theorem mem_toDigits {b n : Nat} {c : Char} (hb : 1 < b) (h : c ∈ Nat.toDigits b n) : ∃ d < b, c = Nat.digitChar d := by
  induction n using Nat.strongRecOn with
  | ind n ih =>
    by_cases hn : n < b
    · rw [Nat.toDigits_of_lt_base hn] at h
      exact ⟨n, hn, by simpa using h⟩
    · rw [Nat.toDigits_of_base_le hb (by omega)] at h
      rcases List.mem_append.1 h with h | h
      · exact ih _ (Nat.div_lt_self (by omega) hb) h
      · exact ⟨n % b, Nat.mod_lt _ (by omega), by simpa using h⟩

/-- A character that is no blank, no comma and no semicolon. -/
def plainChar (c : Char) : Bool := !asmBlank c && c != ',' && c != ';'

theorem plain_digitChar : ∀ d < 16, plainChar (Nat.digitChar d) = true ∧ plainChar (Nat.digitChar d).toUpper = true := by
  decide

theorem plain_numberText (r : Radix) (v : Nat) : ∀ c ∈ numberText r v, plainChar c = true := by
  intro c hc
  cases r with
  | decimal =>
    obtain ⟨d, hd, rfl⟩ := mem_toDigits (by decide) hc
    exact (plain_digitChar d (by omega)).1
  | hexadecimal =>
    simp only [numberText, List.mem_cons, List.mem_map] at hc
    rcases hc with rfl | rfl | ⟨a, ha, rfl⟩
    · decide
    · decide
    · obtain ⟨d, hd, rfl⟩ := mem_toDigits (by decide) ha
      exact (plain_digitChar d hd).2
  | binary =>
    simp only [numberText, List.mem_cons] at hc
    rcases hc with rfl | rfl | hc
    · decide
    · decide
    · obtain ⟨d, hd, rfl⟩ := mem_toDigits (by decide) hc
      exact (plain_digitChar d (by omega)).1

theorem numberText_ne_nil (r : Radix) (v : Nat) : numberText r v ≠ [] := by
  cases r <;> simp [numberText, Nat.toDigits_ne_nil]

theorem digitsValue_toDigits {b : Nat} (hb : 1 < b) (hb' : b ≤ 16) (n : Nat) :
    digitsValue b 0 (Nat.toDigits b n) = some n := by
  simpa using digitsValue_map_toDigits id digitValue_digitChar hb hb' n

/-- A written number reads back (R54). -/
theorem asmNumber_numberText (r : Radix) (v : Nat) : asmNumber (numberText r v) = some v := by
  cases r with
  | decimal =>
    have hx : ∀ d < 10, Nat.digitChar d ≠ 'x' ∧ Nat.digitChar d ≠ 'b' := by decide
    have hmem : ∀ c ∈ Nat.toDigits 10 v, c ≠ 'x' ∧ c ≠ 'b' := by
      intro c hc
      obtain ⟨d, hd, rfl⟩ := mem_toDigits (by decide) hc
      exact hx d hd
    have hv := digitsValue_toDigits (b := 10) (by decide) (by decide) v
    change asmNumber (Nat.toDigits 10 v) = some v
    revert hmem hv
    have hne := Nat.toDigits_ne_nil (b := 10) (n := v)
    generalize Nat.toDigits 10 v = cs at hne ⊢
    intro hmem hv
    unfold asmNumber
    split
    · exact absurd rfl (hmem 'x' (by simp)).1
    · exact absurd rfl (hmem 'b' (by simp)).2
    · exact hv
    · exact absurd rfl hne
  | hexadecimal =>
    have hv := digitsValue_map_toDigits (b := 16) Char.toUpper digitValue_capital (by decide) (by decide) v
    have hne := Nat.toDigits_ne_nil (b := 16) (n := v)
    change asmNumber ('0' :: 'x' :: (Nat.toDigits 16 v).map Char.toUpper) = some v
    cases h : Nat.toDigits 16 v with
    | nil => exact absurd h hne
    | cons c cs => rw [h] at hv; exact hv
  | binary =>
    have hv := digitsValue_toDigits (b := 2) (by decide) (by decide) v
    have hne := Nat.toDigits_ne_nil (b := 2) (n := v)
    change asmNumber ('0' :: 'b' :: Nat.toDigits 2 v) = some v
    cases h : Nat.toDigits 2 v with
    | nil => exact absurd h hne
    | cons c cs => rw [h] at hv; exact hv

/-! ### Blanks and commas -/

theorem dropWhile_blank {cs : List Char} (h : ∀ c ∈ cs, asmBlank c = true) (ds : List Char) :
    (cs ++ ds).dropWhile asmBlank = ds.dropWhile asmBlank := by
  induction cs with
  | nil => rfl
  | cons c cs ih =>
    rw [List.cons_append, List.dropWhile_cons_of_pos (h c List.mem_cons_self)]
    exact ih fun d hd => h d (List.mem_cons_of_mem _ hd)

/-- A text whose two ends are no blanks, between blanks. -/
theorem trimBlanks_between {pre text post : List Char} (hpre : ∀ c ∈ pre, asmBlank c = true)
    (hpost : ∀ c ∈ post, asmBlank c = true) (hne : text ≠ []) (hhead : asmBlank (text.head hne) = false)
    (hlast : asmBlank (text.getLast hne) = false) : trimBlanks (pre ++ (text ++ post)) = text := by
  have h1 : (text ++ post).dropWhile asmBlank = text ++ post := by
    obtain ⟨a, as, rfl⟩ := List.exists_cons_of_ne_nil hne
    rw [List.cons_append, List.dropWhile_cons_of_neg (by simpa using hhead)]
  have h2 : text.reverse.dropWhile asmBlank = text.reverse := by
    have hr : text.reverse ≠ [] := by simpa using hne
    have hh : text.reverse.head hr = text.getLast hne := List.head_reverse hr
    obtain ⟨a, as, ha⟩ := List.exists_cons_of_ne_nil hr
    have hb : asmBlank a = false := by
      simp only [ha, List.head_cons] at hh
      rw [hh]; exact hlast
    rw [ha, List.dropWhile_cons_of_neg (by simp [hb])]
  unfold trimBlanks
  rw [dropWhile_blank hpre, h1, List.reverse_append, dropWhile_blank (by simpa using hpost), h2, List.reverse_reverse]

/-- A text of no blanks, between blanks. -/
theorem trimBlanks_plain {pre text : List Char} (hpre : ∀ c ∈ pre, asmBlank c = true)
    (h : ∀ c ∈ text, plainChar c = true) (hne : text ≠ []) : trimBlanks (pre ++ text) = text := by
  have hb : ∀ c ∈ text, asmBlank c = false := fun c hc => by
    have := h c hc
    simp only [plainChar, Bool.and_eq_true, Bool.not_eq_true'] at this
    exact this.1.1
  have := trimBlanks_between (post := []) hpre (by simp) hne (hb _ (List.head_mem hne)) (hb _ (List.getLast_mem hne))
  simpa using this

theorem splitCommas_piece {as : List Char} (h : ∀ c ∈ as, c ≠ ',') (bs : List Char) :
    splitCommas (as ++ ',' :: bs) = as :: splitCommas bs := by
  induction as with
  | nil => simp [splitCommas]
  | cons a as ih =>
    rw [List.cons_append, splitCommas, if_neg (h a List.mem_cons_self), ih fun c hc => h c (List.mem_cons_of_mem _ hc)]

theorem splitCommas_last {as : List Char} (h : ∀ c ∈ as, c ≠ ',') : splitCommas as = [as] := by
  induction as with
  | nil => rfl
  | cons a as ih =>
    rw [splitCommas, if_neg (h a List.mem_cons_self), ih fun c hc => h c (List.mem_cons_of_mem _ hc)]

theorem plain_no_comma {c : Char} (h : plainChar c = true) : c ≠ ',' := by
  simp only [plainChar, Bool.and_eq_true, bne_iff_ne] at h
  exact h.1.2

theorem plain_no_semicolon {c : Char} (h : plainChar c = true) : c ≠ ';' := by
  simp only [plainChar, Bool.and_eq_true, bne_iff_ne] at h
  exact h.2

theorem plain_no_blank {c : Char} (h : plainChar c = true) : asmBlank c = false := by
  simp only [plainChar, Bool.and_eq_true, Bool.not_eq_true'] at h
  exact h.1.1

/-! ### Operand lists -/

theorem operandsText_cons (o p : Radix × Nat) (ops : List (Radix × Nat)) :
    operandsText (o :: p :: ops) = numberText o.1 o.2 ++ ',' :: ' ' :: operandsText (p :: ops) := rfl

/-- The pieces of a written operand list read back, blanks before it allowed. -/
theorem pieces_operandsText (o : Radix × Nat) (ops : List (Radix × Nat)) (pre : List Char)
    (hpre : ∀ c ∈ pre, asmBlank c = true) :
    (splitCommas (pre ++ operandsText (o :: ops))).mapM (fun p => asmNumber (trimBlanks p)) =
      some ((o :: ops).map Prod.snd) := by
  have hno : ∀ (o : Radix × Nat) (pre : List Char), (∀ c ∈ pre, asmBlank c = true) →
      ∀ c ∈ pre ++ numberText o.1 o.2, c ≠ ',' := by
    intro o pre hpre c hc
    rcases List.mem_append.1 hc with hc | hc
    · rintro rfl; exact absurd (hpre _ hc) (by decide)
    · exact plain_no_comma (plain_numberText _ _ c hc)
  have hval : ∀ (o : Radix × Nat) (pre : List Char), (∀ c ∈ pre, asmBlank c = true) →
      asmNumber (trimBlanks (pre ++ numberText o.1 o.2)) = some o.2 := by
    intro o pre hpre
    rw [trimBlanks_plain hpre (plain_numberText _ _) (numberText_ne_nil _ _), asmNumber_numberText]
  induction ops generalizing o pre with
  | nil =>
    change (splitCommas (pre ++ numberText o.1 o.2)).mapM _ = _
    rw [splitCommas_last (hno o pre hpre)]
    simp [hval o pre hpre]
  | cons p ops ih =>
    have hrest := ih p [' '] (by simp [asmBlank])
    rw [operandsText_cons, ← List.append_assoc, splitCommas_piece (hno o pre hpre), List.mapM_cons, hval o pre hpre]
    simp only [List.singleton_append] at hrest
    rw [hrest]
    rfl

theorem operandsText_ends (o : Radix × Nat) (ops : List (Radix × Nat)) : ∃ hne : operandsText (o :: ops) ≠ [],
    asmBlank ((operandsText (o :: ops)).head hne) = false ∧ asmBlank ((operandsText (o :: ops)).getLast hne) = false := by
  have hn := fun o : Radix × Nat => numberText_ne_nil o.1 o.2
  have hp := fun (o : Radix × Nat) c hc => plain_no_blank (plain_numberText o.1 o.2 c hc)
  induction ops generalizing o with
  | nil => exact ⟨hn o, hp o _ (List.head_mem _), hp o _ (List.getLast_mem _)⟩
  | cons p ops ih =>
    obtain ⟨h, _, hl⟩ := ih p
    refine ⟨by rw [operandsText_cons]; simp, ?_, ?_⟩
    · simp only [operandsText_cons]
      rw [List.head_append_of_ne_nil (hn o)]
      exact hp o _ (List.head_mem _)
    · simp only [operandsText_cons]
      rw [List.getLast_append_of_ne_nil _ (by simp), List.getLast_cons (by simp), List.getLast_cons h]
      exact hl

theorem operandsText_no_semicolon (ops : List (Radix × Nat)) : ∀ c ∈ operandsText ops, c ≠ ';' := by
  induction ops with
  | nil => simp [operandsText]
  | cons o ops ih =>
    cases ops with
    | nil => exact fun c hc => plain_no_semicolon (plain_numberText _ _ c hc)
    | cons p ops =>
      intro c hc
      rw [operandsText_cons] at hc
      rcases List.mem_append.1 hc with hc | hc
      · exact plain_no_semicolon (plain_numberText _ _ c hc)
      · rcases List.mem_cons.1 hc with rfl | hc
        · decide
        · rcases List.mem_cons.1 hc with rfl | hc
          · decide
          · exact ih c hc

/-- A written operand list reads back. -/
theorem asmOperands_operandsText (ops : List (Radix × Nat)) : asmOperands (operandsText ops) = .ok (ops.map Prod.snd) := by
  cases ops with
  | nil => rfl
  | cons o ops =>
    obtain ⟨hne, _⟩ := operandsText_ends o ops
    have := pieces_operandsText o ops [] (by simp)
    rw [List.nil_append] at this
    unfold asmOperands
    rw [if_neg hne, this]

/-! ### Lines -/

theorem takeWhile_all {p : Char → Bool} {as : List Char} (h : ∀ c ∈ as, p c = true) (bs : List Char) :
    (as ++ bs).takeWhile p = as ++ bs.takeWhile p := by
  induction as with
  | nil => rfl
  | cons a as ih =>
    rw [List.cons_append, List.takeWhile_cons_of_pos (h a List.mem_cons_self),
      ih fun c hc => h c (List.mem_cons_of_mem _ hc), List.cons_append]

theorem dropWhile_all {p : Char → Bool} {as : List Char} (h : ∀ c ∈ as, p c = true) (bs : List Char) :
    (as ++ bs).dropWhile p = bs.dropWhile p := by
  induction as with
  | nil => rfl
  | cons a as ih =>
    rw [List.cons_append, List.dropWhile_cons_of_pos (h a List.mem_cons_self)]
    exact ih fun c hc => h c (List.mem_cons_of_mem _ hc)

/-- A written line, with blanks and a comment after it, is read as its name and its operands (R54). -/
theorem assembleLine_lineText {name : List Char} (hn : name ≠ []) (hp : ∀ c ∈ name, plainChar c = true)
    (ops : List (Radix × Nat)) {remark : List Char}
    (hr : ∀ c ∈ remark.takeWhile (fun c => c != ';'), asmBlank c = true) :
    assembleLine (lineText name ops ++ remark) = (assembleNamed name (ops.map Prod.snd)).map some := by
  have hnb : ∀ c ∈ name, (!asmBlank c) = true := fun c hc => by rw [plain_no_blank (hp c hc)]; rfl
  have hsemi : ∀ c ∈ lineText name ops, (c != ';') = true := by
    intro c hc
    rw [bne_iff_ne]
    unfold lineText at hc
    split at hc
    · exact plain_no_semicolon (hp c hc)
    · rcases List.mem_append.1 hc with hc | hc
      · exact plain_no_semicolon (hp c hc)
      · rcases List.mem_cons.1 hc with rfl | hc
        · decide
        · exact operandsText_no_semicolon ops c hc
  have hends : ∃ hne : lineText name ops ≠ [], asmBlank ((lineText name ops).head hne) = false ∧
      asmBlank ((lineText name ops).getLast hne) = false := by
    cases ops with
    | nil => exact ⟨hn, plain_no_blank (hp _ (List.head_mem _)), plain_no_blank (hp _ (List.getLast_mem _))⟩
    | cons o ops =>
      obtain ⟨h, _, hl⟩ := operandsText_ends o ops
      refine ⟨by simp [lineText], ?_, ?_⟩
      · simp only [lineText, reduceCtorEq, if_false]
        rw [List.head_append_of_ne_nil hn]
        exact plain_no_blank (hp _ (List.head_mem _))
      · simp only [lineText, reduceCtorEq, if_false]
        rw [List.getLast_append_of_ne_nil _ (by simp), List.getLast_cons h]
        exact hl
  obtain ⟨hne, hh, hl⟩ := hends
  have htext : trimBlanks ((lineText name ops ++ remark).takeWhile (fun c => c != ';')) = lineText name ops := by
    rw [takeWhile_all hsemi]
    exact trimBlanks_between (pre := []) (by simp) hr hne hh hl
  have hname : (lineText name ops).takeWhile (fun c => !asmBlank c) = name ∧
      trimBlanks ((lineText name ops).dropWhile (fun c => !asmBlank c)) = operandsText ops := by
    cases ops with
    | nil =>
      have h1 := takeWhile_all hnb []
      have h2 := dropWhile_all hnb []
      rw [List.append_nil] at h1 h2
      exact ⟨by simpa [lineText] using h1, by simp only [lineText, if_true]; rw [h2]; rfl⟩
    | cons o ops =>
      obtain ⟨h, ho, hl⟩ := operandsText_ends o ops
      simp only [lineText, reduceCtorEq, if_false]
      refine ⟨by rw [takeWhile_all hnb]; simp [asmBlank], ?_⟩
      rw [dropWhile_all hnb]
      have := trimBlanks_between (pre := [' ']) (post := []) (by simp [asmBlank]) (by simp) h ho hl
      simpa [asmBlank] using this
  unfold assembleLine
  simp only [htext, if_neg hne, hname.1, hname.2, asmOperands_operandsText]

end Sys2Proof.Machine
end

