-- ==== Sys2Proof/Laws/State.lean ====
section
/-! SUPPORT. One lemma per field per update, so that no later proof unfolds a record update. -/

namespace Sys2Proof.Machine

/-! `respond` -/

@[simp] theorem respond_cfg (r : Response) (s : State) : (respond r s).cfg = s.cfg := rfl
@[simp] theorem respond_rByte (r : Response) (s : State) : (respond r s).rByte = s.rByte := rfl
@[simp] theorem respond_rBit (r : Response) (s : State) : (respond r s).rBit = s.rBit := rfl
@[simp] theorem respond_rLen (r : Response) (s : State) : (respond r s).rLen = s.rLen := rfl
@[simp] theorem respond_rErr (r : Response) (s : State) : (respond r s).rErr = s.rErr := rfl
@[simp] theorem respond_wFill (r : Response) (s : State) : (respond r s).wFill = s.wFill := rfl
@[simp] theorem respond_wAcc (r : Response) (s : State) : (respond r s).wAcc = s.wAcc := rfl
@[simp] theorem respond_wErr (r : Response) (s : State) : (respond r s).wErr = s.wErr := rfl
@[simp] theorem respond_fatal (r : Response) (s : State) : (respond r s).fatal = s.fatal := rfl
@[simp] theorem respond_src (r : Response) (s : State) : (respond r s).src = s.src := rfl
@[simp] theorem respond_wbuf (r : Response) (s : State) : (respond r s).wbuf = s.wbuf := rfl
@[simp] theorem respond_powerUp (r : Response) (s : State) : (respond r s).powerUp = s.powerUp := rfl
@[simp] theorem respond_port (r : Response) (s : State) : (respond r s).port = s.port := rfl
@[simp] theorem respond_responses (r : Response) (s : State) : (respond r s).responses = s.responses ++ [r] := rfl

@[simp] theorem respond_wLen (r : Response) (s : State) : (respond r s).wLen = s.wLen := rfl
@[simp] theorem respond_rp (r : Response) (s : State) : (respond r s).rp = s.rp := rfl
@[simp] theorem respond_wp (r : Response) (s : State) : (respond r s).wp = s.wp := rfl
@[simp] theorem respond_rBits (r : Response) (s : State) : (respond r s).rBits = s.rBits := rfl
@[simp] theorem respond_wBits (r : Response) (s : State) : (respond r s).wBits = s.wBits := rfl

/-! `startReader` -/

@[simp] theorem startReader_cfg (len : Nat) (s : State) : (startReader len s).cfg = s.cfg := rfl
@[simp] theorem startReader_rByte (len : Nat) (s : State) : (startReader len s).rByte = 0 := rfl
@[simp] theorem startReader_rBit (len : Nat) (s : State) : (startReader len s).rBit = 0 := rfl
@[simp] theorem startReader_rLen (len : Nat) (s : State) : (startReader len s).rLen = len := rfl
@[simp] theorem startReader_rErr (len : Nat) (s : State) : (startReader len s).rErr = .none := rfl
@[simp] theorem startReader_wFill (len : Nat) (s : State) : (startReader len s).wFill = s.wFill := rfl
@[simp] theorem startReader_wAcc (len : Nat) (s : State) : (startReader len s).wAcc = s.wAcc := rfl
@[simp] theorem startReader_wErr (len : Nat) (s : State) : (startReader len s).wErr = s.wErr := rfl
@[simp] theorem startReader_fatal (len : Nat) (s : State) : (startReader len s).fatal = s.fatal := rfl
@[simp] theorem startReader_src (len : Nat) (s : State) : (startReader len s).src = s.src := rfl
@[simp] theorem startReader_wbuf (len : Nat) (s : State) : (startReader len s).wbuf = s.wbuf := rfl
@[simp] theorem startReader_powerUp (len : Nat) (s : State) : (startReader len s).powerUp = s.powerUp := rfl
@[simp] theorem startReader_port (len : Nat) (s : State) : (startReader len s).port = s.port := rfl
@[simp] theorem startReader_responses (len : Nat) (s : State) : (startReader len s).responses = s.responses := rfl

/-! `startWriter` -/

@[simp] theorem startWriter_cfg (s : State) : (startWriter s).cfg = s.cfg := rfl
@[simp] theorem startWriter_rByte (s : State) : (startWriter s).rByte = s.rByte := rfl
@[simp] theorem startWriter_rBit (s : State) : (startWriter s).rBit = s.rBit := rfl
@[simp] theorem startWriter_rLen (s : State) : (startWriter s).rLen = s.rLen := rfl
@[simp] theorem startWriter_rErr (s : State) : (startWriter s).rErr = s.rErr := rfl
@[simp] theorem startWriter_wFill (s : State) : (startWriter s).wFill = 0 := rfl
@[simp] theorem startWriter_wAcc (s : State) : (startWriter s).wAcc = 0 := rfl
@[simp] theorem startWriter_wErr (s : State) : (startWriter s).wErr = .none := rfl
@[simp] theorem startWriter_fatal (s : State) : (startWriter s).fatal = s.fatal := rfl
@[simp] theorem startWriter_src (s : State) : (startWriter s).src = s.src := rfl
@[simp] theorem startWriter_wbuf (s : State) : (startWriter s).wbuf = [] := rfl
@[simp] theorem startWriter_powerUp (s : State) : (startWriter s).powerUp = s.powerUp := rfl
@[simp] theorem startWriter_port (s : State) : (startWriter s).port = s.port := rfl
@[simp] theorem startWriter_responses (s : State) : (startWriter s).responses = s.responses := rfl

/-! `resetUnit` -/

@[simp] theorem resetUnit_cfg (s : State) : (resetUnit s).cfg = s.cfg := rfl
@[simp] theorem resetUnit_rByte (s : State) : (resetUnit s).rByte = 0 := rfl
@[simp] theorem resetUnit_rBit (s : State) : (resetUnit s).rBit = 0 := rfl
@[simp] theorem resetUnit_rLen (s : State) : (resetUnit s).rLen = 0 := rfl
@[simp] theorem resetUnit_rErr (s : State) : (resetUnit s).rErr = .none := rfl
@[simp] theorem resetUnit_wFill (s : State) : (resetUnit s).wFill = 0 := rfl
@[simp] theorem resetUnit_wAcc (s : State) : (resetUnit s).wAcc = 0 := rfl
@[simp] theorem resetUnit_wErr (s : State) : (resetUnit s).wErr = .none := rfl
@[simp] theorem resetUnit_fatal (s : State) : (resetUnit s).fatal = .none := rfl
@[simp] theorem resetUnit_src (s : State) : (resetUnit s).src = s.src := rfl
@[simp] theorem resetUnit_wbuf (s : State) : (resetUnit s).wbuf = [] := rfl
@[simp] theorem resetUnit_powerUp (s : State) : (resetUnit s).powerUp = s.powerUp := rfl
@[simp] theorem resetUnit_port (s : State) : (resetUnit s).port = s.port := rfl
@[simp] theorem resetUnit_responses (s : State) : (resetUnit s).responses = s.responses := rfl

/-! `takeTransaction` -/

@[simp] theorem takeTransaction_cfg (rest : List Transaction) (s : State) : (takeTransaction rest s).cfg = s.cfg := rfl
@[simp] theorem takeTransaction_rByte (rest : List Transaction) (s : State) : (takeTransaction rest s).rByte = s.rByte := rfl
@[simp] theorem takeTransaction_rBit (rest : List Transaction) (s : State) : (takeTransaction rest s).rBit = s.rBit := rfl
@[simp] theorem takeTransaction_rLen (rest : List Transaction) (s : State) : (takeTransaction rest s).rLen = s.rLen := rfl
@[simp] theorem takeTransaction_rErr (rest : List Transaction) (s : State) : (takeTransaction rest s).rErr = s.rErr := rfl
@[simp] theorem takeTransaction_wFill (rest : List Transaction) (s : State) : (takeTransaction rest s).wFill = s.wFill := rfl
@[simp] theorem takeTransaction_wAcc (rest : List Transaction) (s : State) : (takeTransaction rest s).wAcc = s.wAcc := rfl
@[simp] theorem takeTransaction_wErr (rest : List Transaction) (s : State) : (takeTransaction rest s).wErr = s.wErr := rfl
@[simp] theorem takeTransaction_fatal (rest : List Transaction) (s : State) : (takeTransaction rest s).fatal = s.fatal := rfl
@[simp] theorem takeTransaction_src (rest : List Transaction) (s : State) : (takeTransaction rest s).src = s.src := rfl
@[simp] theorem takeTransaction_wbuf (rest : List Transaction) (s : State) : (takeTransaction rest s).wbuf = s.wbuf := rfl
@[simp] theorem takeTransaction_powerUp (rest : List Transaction) (s : State) : (takeTransaction rest s).powerUp = s.powerUp := rfl
@[simp] theorem takeTransaction_port (rest : List Transaction) (s : State) : (takeTransaction rest s).port = rest := rfl
@[simp] theorem takeTransaction_responses (rest : List Transaction) (s : State) : (takeTransaction rest s).responses = s.responses := rfl

/-! `presentCommand` -/

@[simp] theorem presentCommand_cfg (w : CmdWord) (s : State) : (presentCommand w s).cfg = s.cfg := rfl
@[simp] theorem presentCommand_rByte (w : CmdWord) (s : State) : (presentCommand w s).rByte = s.rByte := rfl
@[simp] theorem presentCommand_rBit (w : CmdWord) (s : State) : (presentCommand w s).rBit = s.rBit := rfl
@[simp] theorem presentCommand_rLen (w : CmdWord) (s : State) : (presentCommand w s).rLen = s.rLen := rfl
@[simp] theorem presentCommand_rErr (w : CmdWord) (s : State) : (presentCommand w s).rErr = s.rErr := rfl
@[simp] theorem presentCommand_wFill (w : CmdWord) (s : State) : (presentCommand w s).wFill = s.wFill := rfl
@[simp] theorem presentCommand_wAcc (w : CmdWord) (s : State) : (presentCommand w s).wAcc = s.wAcc := rfl
@[simp] theorem presentCommand_wErr (w : CmdWord) (s : State) : (presentCommand w s).wErr = s.wErr := rfl
@[simp] theorem presentCommand_fatal (w : CmdWord) (s : State) : (presentCommand w s).fatal = s.fatal := rfl
@[simp] theorem presentCommand_src (w : CmdWord) (s : State) : (presentCommand w s).src = s.src := rfl
@[simp] theorem presentCommand_wbuf (w : CmdWord) (s : State) : (presentCommand w s).wbuf = s.wbuf := rfl
@[simp] theorem presentCommand_powerUp (w : CmdWord) (s : State) : (presentCommand w s).powerUp = s.powerUp := rfl
@[simp] theorem presentCommand_port (w : CmdWord) (s : State) : (presentCommand w s).port = .command w :: s.port := rfl
@[simp] theorem presentCommand_responses (w : CmdWord) (s : State) : (presentCommand w s).responses = s.responses := rfl

/-! `record` -/

@[simp] theorem record_cfg (f : FaultCode) (s : State) : (record f s).cfg = s.cfg := by cases f <;> rfl
@[simp] theorem record_rByte (f : FaultCode) (s : State) : (record f s).rByte = s.rByte := by cases f <;> rfl
@[simp] theorem record_rBit (f : FaultCode) (s : State) : (record f s).rBit = s.rBit := by cases f <;> rfl
@[simp] theorem record_rLen (f : FaultCode) (s : State) : (record f s).rLen = s.rLen := by cases f <;> rfl
@[simp] theorem record_wFill (f : FaultCode) (s : State) : (record f s).wFill = s.wFill := by cases f <;> rfl
@[simp] theorem record_wAcc (f : FaultCode) (s : State) : (record f s).wAcc = s.wAcc := by cases f <;> rfl
@[simp] theorem record_src (f : FaultCode) (s : State) : (record f s).src = s.src := by cases f <;> rfl
@[simp] theorem record_wbuf (f : FaultCode) (s : State) : (record f s).wbuf = s.wbuf := by cases f <;> rfl
@[simp] theorem record_powerUp (f : FaultCode) (s : State) : (record f s).powerUp = s.powerUp := by cases f <;> rfl
@[simp] theorem record_port (f : FaultCode) (s : State) : (record f s).port = s.port := by cases f <;> rfl
@[simp] theorem record_responses (f : FaultCode) (s : State) : (record f s).responses = s.responses := by cases f <;> rfl

/-! `advanceR` -/

@[simp] theorem advanceR_cfg (s : State) : (advanceR s).cfg = s.cfg := by unfold advanceR; split <;> rfl
@[simp] theorem advanceR_rLen (s : State) : (advanceR s).rLen = s.rLen := by unfold advanceR; split <;> rfl
@[simp] theorem advanceR_rErr (s : State) : (advanceR s).rErr = s.rErr := by unfold advanceR; split <;> rfl
@[simp] theorem advanceR_wFill (s : State) : (advanceR s).wFill = s.wFill := by unfold advanceR; split <;> rfl
@[simp] theorem advanceR_wAcc (s : State) : (advanceR s).wAcc = s.wAcc := by unfold advanceR; split <;> rfl
@[simp] theorem advanceR_wErr (s : State) : (advanceR s).wErr = s.wErr := by unfold advanceR; split <;> rfl
@[simp] theorem advanceR_fatal (s : State) : (advanceR s).fatal = s.fatal := by unfold advanceR; split <;> rfl
@[simp] theorem advanceR_src (s : State) : (advanceR s).src = s.src := by unfold advanceR; split <;> rfl
@[simp] theorem advanceR_wbuf (s : State) : (advanceR s).wbuf = s.wbuf := by unfold advanceR; split <;> rfl
@[simp] theorem advanceR_powerUp (s : State) : (advanceR s).powerUp = s.powerUp := by unfold advanceR; split <;> rfl
@[simp] theorem advanceR_port (s : State) : (advanceR s).port = s.port := by unfold advanceR; split <;> rfl
@[simp] theorem advanceR_responses (s : State) : (advanceR s).responses = s.responses := by unfold advanceR; split <;> rfl

/-! `seekR` -/

@[simp] theorem seekR_cfg (p : Nat) (s : State) : (s.seekR p).cfg = s.cfg := rfl
@[simp] theorem seekR_rByte (p : Nat) (s : State) : (s.seekR p).rByte = p / 8 := rfl
@[simp] theorem seekR_rBit (p : Nat) (s : State) : (s.seekR p).rBit = Fin.ofNat 8 p := rfl
@[simp] theorem seekR_rLen (p : Nat) (s : State) : (s.seekR p).rLen = s.rLen := rfl
@[simp] theorem seekR_rErr (p : Nat) (s : State) : (s.seekR p).rErr = s.rErr := rfl
@[simp] theorem seekR_wFill (p : Nat) (s : State) : (s.seekR p).wFill = s.wFill := rfl
@[simp] theorem seekR_wAcc (p : Nat) (s : State) : (s.seekR p).wAcc = s.wAcc := rfl
@[simp] theorem seekR_wErr (p : Nat) (s : State) : (s.seekR p).wErr = s.wErr := rfl
@[simp] theorem seekR_fatal (p : Nat) (s : State) : (s.seekR p).fatal = s.fatal := rfl
@[simp] theorem seekR_src (p : Nat) (s : State) : (s.seekR p).src = s.src := rfl
@[simp] theorem seekR_wbuf (p : Nat) (s : State) : (s.seekR p).wbuf = s.wbuf := rfl
@[simp] theorem seekR_powerUp (p : Nat) (s : State) : (s.seekR p).powerUp = s.powerUp := rfl
@[simp] theorem seekR_port (p : Nat) (s : State) : (s.seekR p).port = s.port := rfl
@[simp] theorem seekR_responses (p : Nat) (s : State) : (s.seekR p).responses = s.responses := rfl

/-! Names of one thing in terms of another -/

@[simp] theorem respondOk_eq (s : State) : respondOk s = respond ⟨.ok, none⟩ s := rfl
@[simp] theorem respondData_eq (d : Word) (s : State) : respondData d s = respond ⟨.ok, some d⟩ s := rfl
@[simp] theorem respondHalted_eq (s : State) : respondHalted s = respond ⟨.eHalted, none⟩ s := rfl
@[simp] theorem raise_eq (f : FaultCode) (s : State) : raise f s = respond ⟨f.status, none⟩ (record f s) := rfl

@[simp] theorem record_eIllegal (s : State) : record .eIllegal s = { s with fatal := .eIllegal } := rfl
@[simp] theorem record_eWidth (s : State) : record .eWidth s = { s with fatal := .eWidth } := rfl
@[simp] theorem record_eOor (s : State) : record .eOor s = { s with rErr := .eOor } := rfl
@[simp] theorem record_eBind (s : State) : record .eBind s = { s with rErr := .eBind } := rfl
@[simp] theorem record_eWovf (s : State) : record .eWovf s = { s with wErr := .eWovf } := rfl
@[simp] theorem record_eWidx (s : State) : record .eWidx s = { s with wErr := .eWidx } := rfl

/-! The switches stand at the readings of this spec -/

@[simp] theorem alignOnBoundary_noop : alignOnBoundary = .noop := rfl
@[simp] theorem openByteView_notCounted : openByteView = .notCounted := rfl
@[simp] theorem endOfBuffer_noBitsRemain : endOfBuffer = .noBitsRemain := rfl

@[simp] theorem countedBytes_eq (s : State) : countedBytes s = s.wLen := rfl
@[simp] theorem readOut_eq (s : State) (idx : Nat) : readOut s idx = s.wbuf[idx]? := rfl

/-- What a source byte reads as depends on the source memory and the power-up draw alone. -/
theorem srcByte_congr {s t : State} (hm : t.src = s.src) (hd : t.powerUp = s.powerUp) (a : Nat) :
    srcByte t a = srcByte s a := by
  unfold srcByte; rw [hm, hd]

end Sys2Proof.Machine
end

