-- ==== Sys2Proof/Laws/Bits.lean ====
section
/-! SUPPORT. Bit strings: bytes and fields written out most significant bit first, and the numbers they write. -/

namespace Sys2Proof.Machine

theorem byteBits_eq (b : Byte) : byteBits b =
    [b.getLsbD 7, b.getLsbD 6, b.getLsbD 5, b.getLsbD 4, b.getLsbD 3, b.getLsbD 2, b.getLsbD 1, b.getLsbD 0] := rfl

@[simp] theorem byteBits_length (b : Byte) : (byteBits b).length = 8 := rfl

theorem byteBits_getElem (b : Byte) (k : Nat) (h : k < (byteBits b).length) : (byteBits b)[k] = streamBit b k := by
  simp [byteBits]

@[simp] theorem bytesBits_nil : bytesBits [] = [] := rfl

@[simp] theorem bytesBits_cons (b : Byte) (bs : List Byte) : bytesBits (b :: bs) = byteBits b ++ bytesBits bs := rfl

@[simp] theorem bytesBits_append (as bs : List Byte) : bytesBits (as ++ bs) = bytesBits as ++ bytesBits bs := by
  simp [bytesBits]

@[simp] theorem bytesBits_length (bs : List Byte) : (bytesBits bs).length = 8 * bs.length := by
  induction bs with
  | nil => rfl
  | cons b bs ih => simp [ih]; omega

/-- The bit at linear position `p` is bit offset `p mod 8` of byte `p div 8` (R33). -/
theorem bytesBits_getElem (bs : List Byte) (p : Nat) (h : p / 8 < bs.length) :
    (bytesBits bs)[p]? = some (streamBit bs[p / 8] (p % 8)) := by
  induction bs generalizing p with
  | nil => simp at h
  | cons b bs ih =>
    rw [bytesBits_cons]
    by_cases hp : p < 8
    · rw [List.getElem?_append_left (by simpa using hp)]
      have h0 : p / 8 = 0 := by omega
      have h1 : p % 8 = p := by omega
      simp [byteBits, h0, h1, hp]
    · rw [List.getElem?_append_right (by simpa using hp)]
      have hq : (p - 8) / 8 < bs.length := by simp at h; omega
      have hd : p / 8 = (p - 8) / 8 + 1 := by omega
      have hm : p % 8 = (p - 8) % 8 := by omega
      simp only [byteBits_length, ih _ hq, hd, hm, List.getElem_cons_succ]

@[simp] theorem fieldBits_zero (v : Word) : fieldBits 0 v = [] := rfl

theorem fieldBits_succ (n : Nat) (v : Word) : fieldBits (n + 1) v = valueBit v n :: fieldBits n v := by
  simp only [fieldBits, List.range_succ_eq_map, List.map_cons, List.map_map]
  refine congrArg₂ _ (by simp) (List.map_congr_left fun i hi => ?_)
  have : n + 1 - 1 - (i + 1) = n - 1 - i := by omega
  simp only [Function.comp, Nat.succ_eq_add_one, this]

@[simp] theorem fieldBits_length (n : Nat) (v : Word) : (fieldBits n v).length = n := by simp [fieldBits]

theorem bitsValue_append_one (bs : List Bool) (b : Bool) : bitsValue (bs ++ [b]) = 2 * bitsValue bs + b.toNat := by
  simp [bitsValue]

@[simp] theorem bitsValue_nil : bitsValue [] = 0 := rfl

/-- A longer string writes the number of its first part, shifted, plus that of the rest. -/
theorem bitsValue_append (as bs : List Bool) : bitsValue (as ++ bs) = bitsValue as * 2 ^ bs.length + bitsValue bs := by
  induction bs using List.reverseRecOn with
  | nil => simp
  | append_singleton bs b ih =>
    rw [← List.append_assoc, bitsValue_append_one, bitsValue_append_one, ih]
    simp [Nat.pow_succ]; ring

theorem bitsValue_lt (bs : List Bool) : bitsValue bs < 2 ^ bs.length := by
  induction bs using List.reverseRecOn with
  | nil => simp
  | append_singleton bs b ih =>
    rw [bitsValue_append_one]
    have : b.toNat ≤ 1 := Bool.toNat_le b
    simp [Nat.pow_succ]; omega

/-- Equal lengths and equal numbers make equal strings. -/
theorem bitsValue_inj {as bs : List Bool} (hl : as.length = bs.length) (hv : bitsValue as = bitsValue bs) : as = bs := by
  induction as using List.reverseRecOn generalizing bs with
  | nil => exact (List.length_eq_zero_iff.1 hl.symm).symm
  | append_singleton as a ih =>
    induction bs using List.reverseRecOn with
    | nil => simp at hl
    | append_singleton bs b _ =>
      rw [bitsValue_append_one, bitsValue_append_one] at hv
      have ha := Bool.toNat_le a
      have hb := Bool.toNat_le b
      have h1 : bitsValue as = bitsValue bs := by omega
      have h2 : a.toNat = b.toNat := by omega
      have h3 : a = b := by revert h2; cases a <;> cases b <;> decide
      rw [ih (by simpa using hl) h1, h3]

/-- A slice of a string writes the shifted and masked number. -/
theorem bitsValue_slice (bs : List Bool) (k n : Nat) (h : k + n ≤ bs.length) :
    bitsValue ((bs.drop k).take n) = bitsValue bs / 2 ^ (bs.length - k - n) % 2 ^ n := by
  have e : bs = bs.take k ++ ((bs.drop k).take n ++ (bs.drop k).drop n) := by simp
  have hlast : ((bs.drop k).drop n).length = bs.length - k - n := by simp; omega
  have hmid : ((bs.drop k).take n).length = n := by simp; omega
  have hlt := bitsValue_lt ((bs.drop k).take n)
  have hlt' := bitsValue_lt ((bs.drop k).drop n)
  rw [hmid] at hlt
  rw [hlast] at hlt'
  have hv : bitsValue bs = (bitsValue (bs.take k) * 2 ^ n + bitsValue ((bs.drop k).take n)) * 2 ^ (bs.length - k - n)
      + bitsValue ((bs.drop k).drop n) := by
    conv_lhs => rw [e]
    rw [bitsValue_append, bitsValue_append, List.length_append, hmid, hlast, Nat.pow_add]; ring
  rw [hv, Nat.add_comm, Nat.add_mul_div_right _ _ (Nat.two_pow_pos _), Nat.div_eq_of_lt hlt', Nat.zero_add, Nat.add_comm,
    Nat.add_mul_mod_self_right, Nat.mod_eq_of_lt hlt]

theorem bitsValue_byteBits (b : Byte) : bitsValue (byteBits b) = b.toNat := by
  revert b; decide

theorem bytesValue_append_one (bs : List Byte) (b : Byte) : bytesValue (bs ++ [b]) = 256 * bytesValue bs + b.toNat := by
  simp [bytesValue]

/-- The number bytes form big-endian is the number their bits write (R35). -/
theorem bitsValue_bytesBits (bs : List Byte) : bitsValue (bytesBits bs) = bytesValue bs := by
  induction bs using List.reverseRecOn with
  | nil => rfl
  | append_singleton bs b ih =>
    rw [bytesBits_append, bitsValue_append, ih, bytesValue_append_one]
    simp [bitsValue_byteBits]; omega

/-- A field's bits write its low bits. -/
theorem bitsValue_fieldBits (n : Nat) (v : Word) : bitsValue (fieldBits n v) = lowBits n v := by
  induction n with
  | zero => simp [lowBits, Nat.mod_one]
  | succ n ih =>
    have e : fieldBits (n + 1) v = [valueBit v n] ++ fieldBits n v := fieldBits_succ n v
    rw [e, bitsValue_append, ih, fieldBits_length]
    simp only [lowBits, Nat.mod_pow_succ, bitsValue, List.foldl_cons, List.foldl_nil, valueBit, BitVec.getLsbD,
      Nat.testBit_eq_decide_div_mod_eq]
    have := Nat.mod_lt (v.toNat / 2 ^ n) (by decide : 0 < 2)
    by_cases h : v.toNat / 2 ^ n % 2 = 1
    · simp [h]; ring
    · have h0 : v.toNat / 2 ^ n % 2 = 0 := by omega
      simp [h0]

/-- Shifting bits into a word, first bit most significant (R62). -/
theorem shiftIn_toNat (v : Word) (b : Bool) (h : v.toNat < 2 ^ 31) : (shiftIn v b).toNat = 2 * v.toNat + b.toNat := by
  have e : shiftIn v b = (v <<< 1) + (BitVec.ofBool b).setWidth 32 := by
    unfold shiftIn
    rw [BitVec.add_eq_or_of_and_eq_zero]
    ext i hi
    cases b <;> simp
    omega
  rw [e, BitVec.toNat_add]
  have hb := Bool.toNat_le b
  simp [Nat.shiftLeft_eq]
  omega

end Sys2Proof.Machine
end

