-- ==== Sys2Proof/Laws/Decode.lean ====
section
/-! SUPPORT. The fields of a command word, and decoding by them. -/

namespace Sys2Proof

/-- The bits of a word made of three fields (R45). -/
theorem getLsbD_ofFields (op : Opcode) (n : Width) (imm : Word) (i : Nat) :
    (CmdWord.ofFields op n imm).getLsbD i =
      if i < 32 then imm.getLsbD i else if i - 32 < 8 then n.getLsbD (i - 32) else op.getLsbD (i - 32 - 8) := by
  have h : (CmdWord.ofFields op n imm).getLsbD i = ((op ++ n) ++ imm).getLsbD i := rfl
  rw [h, BitVec.getLsbD_append, BitVec.getLsbD_append]

@[simp] theorem op_ofFields (op : Opcode) (n : Width) (imm : Word) : CmdWord.op (CmdWord.ofFields op n imm) = op := by
  apply BitVec.eq_of_getLsbD_eq
  intro i hi
  have h1 : ¬ 40 + i < 32 := by omega
  have h2 : ¬ 40 + i - 32 < 8 := by omega
  have h3 : 40 + i - 32 - 8 = i := by omega
  simp only [CmdWord.op, BitVec.getLsbD_extractLsb', getLsbD_ofFields, hi, h1, h2, h3, decide_true, Bool.true_and, if_false]

@[simp] theorem n_ofFields (op : Opcode) (n : Width) (imm : Word) : CmdWord.n (CmdWord.ofFields op n imm) = n := by
  apply BitVec.eq_of_getLsbD_eq
  intro i hi
  have h1 : ¬ 32 + i < 32 := by omega
  have h2 : 32 + i - 32 = i := by omega
  simp only [CmdWord.n, BitVec.getLsbD_extractLsb', getLsbD_ofFields, hi, h1, h2, decide_true, Bool.true_and, if_false, if_true]

@[simp] theorem imm_ofFields (op : Opcode) (n : Width) (imm : Word) : CmdWord.imm (CmdWord.ofFields op n imm) = imm := by
  apply BitVec.eq_of_getLsbD_eq
  intro i hi
  simp only [CmdWord.imm, BitVec.getLsbD_extractLsb', getLsbD_ofFields, Nat.zero_add, hi, decide_true, Bool.true_and, if_true]

/-- A command word is its three fields (R45). -/
theorem ofFields_fields (w : CmdWord) : CmdWord.ofFields (CmdWord.op w) (CmdWord.n w) (CmdWord.imm w) = w := by
  apply BitVec.eq_of_getLsbD_eq
  intro i hi
  simp only [getLsbD_ofFields, CmdWord.op, CmdWord.n, CmdWord.imm, BitVec.getLsbD_extractLsb']
  by_cases h1 : i < 32
  · simp [h1]
  · by_cases h2 : i - 32 < 8
    · have : 32 + (i - 32) = i := by omega
      simp [h1, h2, this]
    · have h3 : i - 32 - 8 < 8 := by omega
      have : 40 + (i - 32 - 8) = i := by omega
      simp [h1, h2, h3, this]

/-- Decoding finds the row of the opcode and checks its format's must-be-zero bits (R47, R48). -/
theorem decode_of_row {w : CmdWord} {r : Row} (hr : opcodeMap.find? (fun r => r.op == CmdWord.op w) = some r) :
    decode w = if r.format.mbzClear (CmdWord.n w) (CmdWord.imm w) then .ok (r.build (CmdWord.n w) (CmdWord.imm w))
      else .error .mbzBitSet := by
  simp [decode, hr]

/-- No two rows of the opcode map share an opcode (R46, R48). -/
theorem opcodeMap_distinct : opcodeMap.Pairwise (fun r q => r.op ≠ q.op) := by decide

/-- A decoded word belongs to a row whose must-be-zero bits are clear. -/
theorem decode_ok {w : CmdWord} {i : Instr} (h : decode w = .ok i) : ∃ r ∈ opcodeMap, r.op = CmdWord.op w ∧
    r.format.mbzClear (CmdWord.n w) (CmdWord.imm w) = true ∧ i = r.build (CmdWord.n w) (CmdWord.imm w) := by
  unfold decode at h
  split at h
  · cases h
  · rename_i r hr
    split at h
    · cases h
      exact ⟨r, List.mem_of_find?_eq_some hr, by simpa using List.find?_some hr, ‹_›, rfl⟩
    · cases h

/-- The row of an opcode is the one found by it. -/
theorem find_row {r : Row} (hr : r ∈ opcodeMap) {op : Opcode} (h : r.op = op) :
    opcodeMap.find? (fun q => q.op == op) = some r := by
  subst h
  simp only [opcodeMap, List.mem_cons, List.not_mem_nil, or_false] at hr
  rcases hr with rfl | rfl | rfl | rfl | rfl | rfl | rfl | rfl | rfl | rfl | rfl | rfl | rfl | rfl | rfl | rfl <;> rfl

theorem shiftRight_one_eq_zero {imm : Word} : imm >>> 1 = 0 ↔ imm.toNat ≤ 1 := by
  rw [← BitVec.toNat_inj]
  simp [BitVec.toNat_ushiftRight, Nat.shiftRight_eq_div_pow]

/-! ### Masks -/

theorem and_ofFields (a b : Opcode) (c d : Width) (e f : Word) :
    CmdWord.ofFields a c e &&& CmdWord.ofFields b d f = CmdWord.ofFields (a &&& b) (c &&& d) (e &&& f) := by
  apply BitVec.eq_of_getLsbD_eq
  intro i hi
  simp only [BitVec.getLsbD_and, getLsbD_ofFields]
  split
  · rfl
  · split <;> rfl

theorem ofFields_inj {a b : Opcode} {c d : Width} {e f : Word} :
    CmdWord.ofFields a c e = CmdWord.ofFields b d f ↔ a = b ∧ c = d ∧ e = f := by
  constructor
  · intro h
    exact ⟨by simpa using congrArg CmdWord.op h, by simpa using congrArg CmdWord.n h,
      by simpa using congrArg CmdWord.imm h⟩
  · rintro ⟨rfl, rfl, rfl⟩; rfl

/-- All bits of a value but the lowest are zero. -/
theorem and_but_lowest_eq_zero (x : Word) : x &&& 0xFFFFFFFE = 0 ↔ x >>> 1 = 0 := by
  have hm : ∀ i, i < 31 → (0xFFFFFFFE : Word).getLsbD (1 + i) = true := by decide
  constructor
  · intro h
    apply BitVec.eq_of_getLsbD_eq
    intro i hi
    have e := congrArg (fun y => y.getLsbD (1 + i)) h
    simp only [BitVec.getLsbD_and] at e
    by_cases h31 : i = 31
    · subst h31; simp
    · rw [hm i (by omega)] at e
      simpa using e
  · intro h
    apply BitVec.eq_of_getLsbD_eq
    intro i hi
    cases i with
    | zero => simp
    | succ i =>
      have e := congrArg (fun y => y.getLsbD i) h
      simp only [BitVec.getLsbD_ushiftRight, Nat.add_comm] at e
      simp [e]

/-- The masks of R46 field by field. -/
theorem mask_ofFields (f : Format) : f.mask = match f with
    | .Z => CmdWord.ofFields 0xFF 0xFF 0xFFFFFFFF
    | .N => CmdWord.ofFields 0xFF 0 0xFFFFFFFF
    | .NI => CmdWord.ofFields 0xFF 0 0
    | .I => CmdWord.ofFields 0xFF 0xFF 0
    | .B => CmdWord.ofFields 0xFF 0xFF 0xFFFFFFFE := by cases f <;> decide

/-- The test of R46, `(w & mask) = match`, field by field. -/
theorem row_match (w : CmdWord) (r : Row) : w &&& r.format.mask = r.matchWord ↔
    CmdWord.op w = r.op ∧ r.format.mbzClear (CmdWord.n w) (CmdWord.imm w) = true := by
  have h8 : ∀ x : BitVec 8, x &&& 255#8 = x := fun x => BitVec.and_allOnes (x := x)
  have h32 : ∀ x : BitVec 32, x &&& 4294967295#32 = x := fun x => BitVec.and_allOnes (x := x)
  have hB : ∀ x : BitVec 32, x &&& 4294967294#32 = 0#32 ↔ x >>> 1 = 0#32 := and_but_lowest_eq_zero
  conv_lhs => rw [← ofFields_fields w]
  obtain ⟨op, f, b⟩ := r
  cases f <;> simp [mask_ofFields, and_ofFields, Row.matchWord, ofFields_inj, Format.mbzClear, h8, h32, hB]

end Sys2Proof
end

