-- ==== Sys2Proof/Laws/Memory.lean ====
section
/-! SUPPORT. The memory operations: read after write, and the canonical form kept. -/

namespace Sys2Proof.Machine

theorem lookup_write_same (m : Memory) (a : Nat) (b : Byte) : Memory.lookup (Memory.write m a b) a = some b := by
  induction m with
  | nil => simp [Memory.write, Memory.lookup]
  | cons c m ih =>
    obtain ⟨k, d⟩ := c
    simp only [Memory.write]
    split
    · simp [Memory.lookup]
    · split
      · simp [Memory.lookup]
      · have : k ≠ a := by omega
        simp [Memory.lookup, this, ih]

theorem lookup_write_other (m : Memory) {a x : Nat} (b : Byte) (h : x ≠ a) :
    Memory.lookup (Memory.write m a b) x = Memory.lookup m x := by
  induction m with
  | nil => simp [Memory.write, Memory.lookup, h.symm]
  | cons c m ih =>
    obtain ⟨k, d⟩ := c
    simp only [Memory.write]
    split
    · simp [Memory.lookup, h.symm]
    · split
      · subst a; simp [Memory.lookup, h.symm]
      · simp [Memory.lookup, ih]

/-- The addresses listed after a write are those before and the one written. -/
theorem mem_write {m : Memory} {a : Nat} {b : Byte} {c : Host.Cell} (h : c ∈ Memory.write m a b) :
    c = (a, b) ∨ c ∈ m := by
  induction m with
  | nil => simpa [Memory.write] using h
  | cons e m ih =>
    obtain ⟨k, d⟩ := e
    simp only [Memory.write] at h
    split at h
    · simpa using h
    · split at h
      · rcases List.mem_cons.1 h with h | h
        · exact .inl h
        · exact .inr (List.mem_cons_of_mem _ h)
      · rcases List.mem_cons.1 h with h | h
        · exact .inr (h ▸ List.mem_cons_self)
        · exact (ih h).imp id (List.mem_cons_of_mem _)

/-- A write keeps the canonical form. -/
theorem write_wf {m : Memory} (h : Memory.wf m) (a : Nat) (b : Byte) : Memory.wf (Memory.write m a b) := by
  induction m with
  | nil => simp [Memory.write, Memory.wf]
  | cons e m ih =>
    obtain ⟨k, d⟩ := e
    obtain ⟨hk, hm⟩ := List.pairwise_cons.1 h
    simp only [Memory.write]
    split
    · rename_i hlt
      refine List.pairwise_cons.2 ⟨fun c hc => ?_, h⟩
      rcases List.mem_cons.1 hc with rfl | hc
      · exact hlt
      · exact Nat.lt_trans hlt (hk c hc)
    · split
      · rename_i heq
        subst heq
        exact List.pairwise_cons.2 ⟨hk, hm⟩
      · rename_i hge hne
        refine List.pairwise_cons.2 ⟨fun c hc => ?_, ih hm⟩
        rcases mem_write hc with rfl | hc
        · simp; omega
        · exact hk c hc

theorem reset_memory_wf : Memory.wf State.reset.src := List.Pairwise.nil

/-- A source byte after the host has written one. -/
theorem srcByte_write (s : State) (a x : Nat) (b : Byte) :
    srcByte { s with src := Memory.write s.src a b } x = if x = a then b else srcByte s x := by
  unfold srcByte
  split
  · subst x; simp [lookup_write_same]
  · simp [lookup_write_other _ _ ‹_›]

/-- `MemRead(SRC)` within its requirement (R44). -/
theorem memReadSrc_bound {s : State} {a : Nat} (h : a < s.rLen) : memReadSrc s a = some (srcByte s a) := if_pos h

/-- `MemRead(SRC)` outside its requirement gives no value. -/
theorem memReadSrc_outside {s : State} {a : Nat} (h : ¬ a < s.rLen) : memReadSrc s a = none := if_neg h

/-- `MemWrite(WBUF)` within its requirement appends one byte (R38, R44). -/
theorem memWriteWbuf_bound {s : State} (v : Byte) (h : s.wLen < s.cfg.wcap) :
    memWriteWbuf s s.wLen v = some { s with wbuf := s.wbuf ++ [v] } := if_pos ⟨rfl, h⟩

end Sys2Proof.Machine
end

