-- ==== Sys2Proof/Laws/Reader.lean ====
section
/-! SUPPORT. The reader half: the cursor as a linear position, and all that reading bits can do. -/

namespace Sys2Proof.Machine

@[simp] theorem seekR_rp (s : State) (p : Nat) : (s.seekR p).rp = p := by
  simp [State.rp, Nat.div_add_mod]

@[simp] theorem seekR_seekR (s : State) (p q : Nat) : (s.seekR p).seekR q = s.seekR q := rfl

/-- A cursor is its linear position (R11, R33). -/
theorem eq_seekR (s : State) (b : Nat) (k : Fin 8) : { s with rByte := b, rBit := k } = s.seekR (8 * b + k.val) := by
  have hb : b = (8 * b + k.val) / 8 := by omega
  have hk : k = Fin.ofNat 8 (8 * b + k.val) := by
    apply Fin.ext; simp only [Fin.val_ofNat]; omega
  unfold State.seekR
  rw [← hb, ← hk]

@[simp] theorem seekR_self (s : State) : s.seekR s.rp = s := (eq_seekR s s.rByte s.rBit).symm

@[simp] theorem seekR_rBits (s : State) (p : Nat) : (s.seekR p).rBits = s.rBits := rfl

@[simp] theorem rBits_length (s : State) : s.rBits.length = 8 * s.rLen := by simp [State.rBits, boundBytes]

/-- `AdvanceR()` adds exactly 1 to `RP` (R11). -/
theorem advanceR_eq (s : State) : advanceR s = s.seekR (s.rp + 1) := by
  unfold advanceR
  split
  · rename_i h
    rw [eq_seekR]; simp [State.rp, h]; congr 1
  · rename_i h
    have hv : (s.rBit + 1).val = s.rBit.val + 1 := by
      have : s.rBit.val ≠ 7 := fun e => h (Fin.ext e)
      rw [Fin.val_add]; simp; omega
    have e : ({ s with rBit := s.rBit + 1 } : State) = { s with rByte := s.rByte, rBit := s.rBit + 1 } := rfl
    rw [e, eq_seekR, hv]; rfl

/-- The bit of the bound buffer at a position (R25, R34). -/
theorem rBits_getElem (s : State) (p : Nat) (h : p < 8 * s.rLen) :
    s.rBits[p]? = some (streamBit (srcByte s (p / 8)) (p % 8)) := by
  have hb : p / 8 < (boundBytes s).length := by simp [boundBytes]; omega
  rw [State.rBits, bytesBits_getElem _ _ hb]
  simp [boundBytes]

theorem srcBit_eq (s : State) (p : Nat) : srcBit s p = (streamBit (srcByte s (p / 8)) (p % 8)).toNat := by
  simp only [srcBit, streamBit, BitVec.getLsbD, Nat.testBit_eq_decide_div_mod_eq]
  have := Nat.mod_lt ((srcByte s (p / 8)).toNat / 2 ^ (7 - p % 8)) (by decide : 0 < 2)
  by_cases h : (srcByte s (p / 8)).toNat / 2 ^ (7 - p % 8) % 2 = 1
  · simp [h]
  · simp [h]; omega

/-- `ReadBit()` inside the bound buffer returns the bit at the cursor and moves on by one (R61). -/
theorem readBit_eq (s : State) (h : s.rp < 8 * s.rLen) :
    readBit s = some (streamBit (srcByte s (s.rp / 8)) (s.rp % 8), s.seekR (s.rp + 1)) := by
  have hb : s.rp / 8 = s.rByte := by unfold State.rp; omega
  have hk : s.rp % 8 = s.rBit.val := by unfold State.rp; omega
  have hlt : s.rByte < s.rLen := by omega
  simp [readBit, memReadSrc_bound hlt, advanceR_eq, hb, hk]

/-- The loop of `RREAD` inside the bound buffer: it shifts in the next `n` bits and moves the cursor by `n` (R62). -/
theorem readField_eq (n : Nat) (v : Word) (s : State) (h : s.rp + n ≤ 8 * s.rLen) :
    readField n v s = some (((s.rBits.drop s.rp).take n).foldl shiftIn v, s.seekR (s.rp + n)) := by
  induction n generalizing v s with
  | zero => simp [readField]
  | succ n ih =>
    have hlt : s.rp < 8 * s.rLen := by omega
    have hstep : (s.seekR (s.rp + 1)).rp + n ≤ 8 * (s.seekR (s.rp + 1)).rLen := by simp; omega
    have hl : s.rp < s.rBits.length := by simpa using hlt
    have hb : s.rBits[s.rp] = streamBit (srcByte s (s.rp / 8)) (s.rp % 8) :=
      List.getElem_eq_iff hl |>.2 (rBits_getElem s s.rp hlt)
    rw [readField, readBit_eq s hlt, Option.bind_some, ih _ _ hstep, List.drop_eq_getElem_cons hl, hb]
    simp [Nat.add_assoc, Nat.add_comm 1 n]

/-- Up to 32 bits shifted into an empty word write their number. -/
theorem foldl_shiftIn_toNat (bs : List Bool) (h : bs.length ≤ 32) : (bs.foldl shiftIn 0).toNat = bitsValue bs := by
  induction bs using List.reverseRecOn with
  | nil => rfl
  | append_singleton bs b ih =>
    have hl : bs.length ≤ 31 := by simp at h; omega
    have hlt : bitsValue bs < 2 ^ 31 := Nat.lt_of_lt_of_le (bitsValue_lt bs) (Nat.pow_le_pow_right (by decide) hl)
    rw [List.foldl_append, List.foldl_cons, List.foldl_nil, bitsValue_append_one, shiftIn_toNat _ _ (by rw [ih (by omega)]; exact hlt),
      ih (by omega)]

theorem nextBits_toNat (s : State) (n : Nat) (h : n ≤ 32) :
    (nextBits s n).toNat = bitsValue ((s.rBits.drop s.rp).take n) := by
  have hl : ((s.rBits.drop s.rp).take n).length ≤ n := List.length_take_le _ _
  have := bitsValue_lt ((s.rBits.drop s.rp).take n)
  have h2 : 2 ^ ((s.rBits.drop s.rp).take n).length ≤ 2 ^ 32 := Nat.pow_le_pow_right (by decide) (by omega)
  simp only [nextBits, BitVec.toNat_ofNat]
  exact Nat.mod_eq_of_lt (by omega)

/-- `RREAD` past its common checks, in every state: the fault, or the next `n` bits (R62). -/
theorem rreadBody_eq (n : Nat) (s : State) (hn : n ≤ 32) : rreadBody n s =
    if s.rp + n ≤ 8 * s.rLen then .next (respond ⟨.ok, some (nextBits s n)⟩ (s.seekR (s.rp + n)))
    else .next (raise .eOor s) := by
  unfold rreadBody
  have hp : 8 * s.rByte + s.rBit.val = s.rp := rfl
  rw [hp]
  by_cases h : s.rp + n ≤ 8 * s.rLen
  · rw [if_neg (by omega), if_pos h, readField_eq n 0 s h]
    have : ((s.rBits.drop s.rp).take n).foldl shiftIn 0 = nextBits s n := by
      apply BitVec.eq_of_toNat_eq
      rw [foldl_shiftIn_toNat _ (Nat.le_trans (List.length_take_le _ _) hn), nextBits_toNat _ _ hn]
    rw [this]; rfl
  · rw [if_pos (by omega), if_neg h]

/-- `RALIGN` past its common checks: the cursor goes to the boundary at or after it (R64). -/
theorem ralignBody_eq (s : State) : ralignBody s = .next (respond ⟨.ok, none⟩ (s.seekR ((s.rp + 7) / 8 * 8))) := by
  unfold ralignBody
  split
  · rename_i h
    have : (s.rp + 7) / 8 * 8 = s.rp := by simp [State.rp, h]; omega
    rw [this, seekR_self]; rfl
  · rename_i h
    have hk : s.rBit.val ≠ 0 := fun e => h (Fin.ext e)
    have : (s.rp + 7) / 8 * 8 = 8 * (s.rByte + 1) + (0 : Fin 8).val := by simp [State.rp]; omega
    rw [this, ← eq_seekR]; rfl

end Sys2Proof.Machine
end

