-- ==== Sys2Proof/Laws/Writer.lean ====
section
/-! SUPPORT. The writer half: all that putting bits and committing the open byte can do. -/

namespace Sys2Proof.Machine

/-- What the bit steps of the writer may do: they touch the open byte and append to the buffer, and move the write cursor
by `n`. -/
structure Appends (n : Nat) (s t : State) : Prop where
  frame : t = { s with wbuf := t.wbuf, wFill := t.wFill, wAcc := t.wAcc }
  grows : s.wbuf <+: t.wbuf
  moves : t.wp = s.wp + n

theorem Appends.refl (s : State) : Appends 0 s s := ⟨rfl, List.prefix_refl _, rfl⟩

theorem Appends.trans {m n : Nat} {s t u : State} (h : Appends m s t) (k : Appends n t u) : Appends (m + n) s u where
  frame := by
    have hf := h.frame; have kf := k.frame
    generalize ht : t.wbuf = b at *; generalize t.wFill = f at *; generalize t.wAcc = a at *
    rw [kf, hf]
  grows := h.grows.trans k.grows
  moves := by rw [k.moves, h.moves, Nat.add_assoc]

theorem wFill_lt (s : State) : s.wFill.val < 8 := s.wFill.isLt

theorem wLen_eq (s : State) : s.wLen = s.wp / 8 := by have := wFill_lt s; unfold State.wp; omega

theorem wFill_eq (s : State) : s.wFill.val = s.wp % 8 := by have := wFill_lt s; unfold State.wp; omega

/-- Committing the open byte within capacity (R71, R77). -/
theorem commitOpen_eq {s : State} (h : s.wLen < s.cfg.wcap) :
    commitOpen s = some { s with wbuf := s.wbuf ++ [s.wAcc], wAcc := 0, wFill := 0 } := by
  unfold commitOpen
  rw [memWriteWbuf_bound _ h]
  rfl

/-- `PutBit(b)` when the byte stays open (R71). -/
theorem putBit_open {s : State} (b : Bool) (h : s.wFill ≠ 7) :
    putBit b s = some { s with wAcc := fillBit s.wAcc s.wFill.val b, wFill := s.wFill + 1 } := by
  simp [putBit, h]

/-- `PutBit(b)` when the bit completes the byte (R71). -/
theorem putBit_close {s : State} (b : Bool) (h : s.wFill = 7) (hc : s.wLen < s.cfg.wcap) :
    putBit b s = some { s with wbuf := s.wbuf ++ [fillBit s.wAcc 7 b], wAcc := 0, wFill := 0 } := by
  simp only [putBit, h, if_true]
  rw [commitOpen_eq (by exact hc)]
  rfl

theorem wFill_succ {s : State} (h : s.wFill ≠ 7) : (s.wFill + 1).val = s.wFill.val + 1 := by
  have : s.wFill.val ≠ 7 := fun e => h (Fin.ext e)
  rw [Fin.val_add]; simp; omega

/-- `PutBit(b)` within capacity appends one bit, whatever the open byte holds. -/
theorem putBit_appends {s : State} (b : Bool) (hc : s.wFill = 7 → s.wLen < s.cfg.wcap) :
    ∃ t, putBit b s = some t ∧ Appends 1 s t := by
  by_cases h : s.wFill = 7
  · refine ⟨_, putBit_close b h (hc h), rfl, List.prefix_append _ _, ?_⟩
    simp [State.wp, State.wLen, h]; omega
  · exact ⟨_, putBit_open b h, rfl, List.prefix_refl _, by simp only [State.wp, wFill_succ h]; rfl⟩

/-- The loop of `WBITS` within capacity appends its bits, whatever the open byte holds (R72). -/
theorem putField_appends (imm : Word) (n : Nat) {s : State} (hc : (s.wp + n) / 8 ≤ s.cfg.wcap) :
    ∃ t, putField imm n s = some t ∧ Appends n s t := by
  induction n generalizing s with
  | zero => exact ⟨s, rfl, Appends.refl s⟩
  | succ n ih =>
    have hput : s.wFill = 7 → s.wLen < s.cfg.wcap := fun h => by simp [State.wp, h] at hc; omega
    obtain ⟨t, ht, ha⟩ := putBit_appends (valueBit imm n) hput
    have hcfg : t.cfg = s.cfg := by rw [ha.frame]
    obtain ⟨u, hu, hb⟩ := ih (s := t) (by rw [ha.moves, hcfg]; omega)
    exact ⟨u, by rw [putField, ht, Option.bind_some, hu], by simpa [Nat.add_comm] using ha.trans hb⟩

/-- A field write past its common checks, in every state: the fault, or the bits appended (R72). -/
theorem writeField_cases (n : Nat) (imm : Word) (s : State) :
    (s.cfg.wcap < (s.wp + n) / 8 ∧ writeField n imm s = .next (raise .eWovf s)) ∨
    ((s.wp + n) / 8 ≤ s.cfg.wcap ∧ ∃ t, putField imm n s = some t ∧ Appends n s t ∧
      writeField n imm s = .next (respond ⟨.ok, none⟩ t)) := by
  by_cases h : s.cfg.wcap < (s.wp + n) / 8
  · exact .inl ⟨h, by simp [writeField, h]⟩
  · obtain ⟨t, ht, ha⟩ := putField_appends imm n (s := s) (by omega)
    exact .inr ⟨by omega, t, ht, ha, by simp [writeField, h, ht]⟩

/-- Reading out past its common checks: the committed byte at the index, or the fault (R87). -/
theorem wrdbyteBody_eq (idx : Word) (s : State) : wrdbyteBody idx s =
    match s.wbuf[idx.toNat]? with
    | some b => .next (respond ⟨.ok, some (byteWord b)⟩ s)
    | none => .next (raise .eWidx s) := by
  unfold wrdbyteBody
  rw [readOut_eq]
  split
  · rename_i h
    have h' : s.wbuf.length ≤ idx.toNat := h
    rw [List.getElem?_eq_none h']
  · rename_i h
    have h' : idx.toNat < s.wbuf.length := Nat.lt_of_not_le h
    rw [List.getElem?_eq_getElem h']
    rfl

/-! ### The bits of the open byte -/

/-- The bit put in stands at its offset, and the other offsets stay (R33, R71). -/
theorem streamBit_fillBit (acc : Byte) (k j : Nat) (b : Bool) (hk : k < 8) (hj : j < 8) :
    streamBit (fillBit acc k b) j = if j = k then streamBit acc k || b else streamBit acc j := by
  unfold streamBit fillBit
  rw [BitVec.getLsbD_or, BitVec.getLsbD_shiftLeft]
  by_cases h : j = k
  · subst h
    have : 7 - j < 8 := by omega
    simp [this]
  · rw [if_neg h]
    by_cases hlt : 7 - j < 7 - k
    · simp [hlt]
    · have : 7 - j - (7 - k) ≠ 0 := by omega
      simp [this]

theorem byteBits_take_succ (b : Byte) (k : Nat) (hk : k < 8) :
    (byteBits b).take (k + 1) = (byteBits b).take k ++ [streamBit b k] := by
  rw [List.take_add_one, List.getElem?_eq_getElem (by simpa using hk), byteBits_getElem]
  rfl

theorem byteBits_take_fillBit (acc : Byte) (k : Nat) (b : Bool) (hk : k < 8) (h : streamBit acc k = false) :
    (byteBits (fillBit acc k b)).take (k + 1) = (byteBits acc).take k ++ [b] := by
  rw [byteBits_take_succ _ _ hk, streamBit_fillBit _ _ _ _ hk hk]
  congr 1
  · apply List.ext_getElem
    · simp
    · intro j h1 h2
      have hj : j < k := by simp at h1; omega
      rw [List.getElem_take, List.getElem_take, byteBits_getElem, byteBits_getElem,
        streamBit_fillBit _ _ _ _ hk (by omega), if_neg (by omega)]
  · simp [h]

/-- Under the writer invariant the offsets not yet filled are zero. -/
theorem WriterInv.streamBit {s : State} (h : s.WriterInv) {k : Nat} (hk : s.wFill.val ≤ k) (hk8 : k < 8) :
    streamBit s.wAcc k = false := h (7 - k) (by omega)

theorem writerInv_zero (s : State) : State.WriterInv { s with wAcc := 0, wFill := 0 } := by
  intro i _; simp

/-- `PutBit(b)` appends `b` to `WBits` and keeps the writer invariant (R71, R17). -/
theorem putBit_wBits {s t : State} (b : Bool) (hi : s.WriterInv) (ht : putBit b s = some t) :
    t.wBits = s.wBits ++ [b] ∧ t.WriterInv := by
  have h0 := WriterInv.streamBit hi (Nat.le_refl _) (wFill_lt s)
  by_cases h : s.wFill = 7
  · by_cases hc : s.wLen < s.cfg.wcap
    · rw [putBit_close b h hc] at ht
      cases ht
      refine ⟨?_, by intro i _; simp⟩
      have hv : s.wFill.val = 7 := by rw [h]; rfl
      rw [hv] at h0
      have e := byteBits_take_fillBit s.wAcc 7 b (by decide) h0
      rw [List.take_of_length_le (by simp)] at e
      simp [State.wBits, h, e]
    · have : putBit b s = none := by simp [putBit, h, commitOpen, memWriteWbuf, hc]
      rw [this] at ht; cases ht
  · rw [putBit_open b h] at ht
    cases ht
    constructor
    · simp only [State.wBits, wFill_succ h]
      rw [byteBits_take_fillBit _ _ _ (wFill_lt s) h0, List.append_assoc]
    · intro i hik
      simp only [wFill_succ h] at hik
      have hj : i = 7 - (7 - i) := by omega
      have e := streamBit_fillBit s.wAcc s.wFill.val (7 - i) b (wFill_lt s) (by omega)
      rw [if_neg (by omega), WriterInv.streamBit hi (by omega) (by omega)] at e
      unfold streamBit at e
      rw [← hj] at e
      exact e

/-- The loop of `WBITS` appends the field's bits to `WBits` and keeps the writer invariant (R72, R73). -/
theorem putField_wBits (imm : Word) (n : Nat) {s t : State} (hi : s.WriterInv) (ht : putField imm n s = some t) :
    t.wBits = s.wBits ++ fieldBits n imm ∧ t.WriterInv := by
  induction n generalizing s with
  | zero => cases ht; exact ⟨by simp, hi⟩
  | succ n ih =>
    rw [putField] at ht
    obtain ⟨u, hu, hut⟩ := Option.bind_eq_some_iff.1 ht
    obtain ⟨hb, hiu⟩ := putBit_wBits _ hi hu
    obtain ⟨hb', hit⟩ := ih hiu hut
    exact ⟨by rw [hb', hb, fieldBits_succ, List.append_assoc]; rfl, hit⟩

@[simp] theorem wBits_length (s : State) : s.wBits.length = s.wp := by
  simp [State.wBits, State.wp, State.wLen]

/-- The bit string determines the registers of the writer (R26). -/
theorem writer_eq_of_wBits {s t : State} (hs : s.WriterInv) (ht : t.WriterInv) (h : s.wBits = t.wBits) :
    s.wbuf = t.wbuf ∧ s.wFill = t.wFill ∧ s.wAcc = t.wAcc := by
  have hp : s.wp = t.wp := by rw [← wBits_length, ← wBits_length, h]
  have hf : s.wFill = t.wFill := Fin.ext (by rw [wFill_eq, wFill_eq, hp])
  have hl : s.wLen = t.wLen := by rw [wLen_eq, wLen_eq, hp]
  obtain ⟨hb, ha⟩ := List.append_inj h (by rw [bytesBits_length, bytesBits_length]; exact congrArg _ hl)
  refine ⟨?_, hf, ?_⟩
  · apply List.ext_getElem hl
    intro i h1 h2
    apply BitVec.eq_of_getLsbD_eq
    intro j hj
    have e : (bytesBits s.wbuf)[8 * i + (7 - j)]? = (bytesBits t.wbuf)[8 * i + (7 - j)]? := by rw [hb]
    have hd : (8 * i + (7 - j)) / 8 = i := by omega
    have hm : (8 * i + (7 - j)) % 8 = 7 - j := by omega
    rw [bytesBits_getElem _ _ (by rw [hd]; exact h1), bytesBits_getElem _ _ (by rw [hd]; exact h2), Option.some_inj] at e
    simp only [hd, hm, streamBit] at e
    have : 7 - (7 - j) = j := by omega
    rwa [this] at e
  · apply BitVec.eq_of_getLsbD_eq
    intro j hj
    by_cases hk : 7 - j < s.wFill.val
    · have e : ((byteBits s.wAcc).take s.wFill.val)[7 - j]? = ((byteBits t.wAcc).take t.wFill.val)[7 - j]? := by rw [ha]
      rw [← hf, List.getElem?_take_of_lt hk, List.getElem?_take_of_lt hk,
        List.getElem?_eq_getElem (by simp; omega), List.getElem?_eq_getElem (by simp; omega), byteBits_getElem,
        byteBits_getElem, Option.some_inj] at e
      have : 7 - (7 - j) = j := by omega
      simpa only [streamBit, this] using e
    · rw [hs j (by omega), ht j (by rw [← hf]; omega)]

end Sys2Proof.Machine
end

