-- ==== Sys2Proof/Laws/Step.lean ====
section
/-! SUPPORT. All that a command and a step can do, said once. -/

namespace Sys2Proof.Machine

/-! ### The common checks -/

theorem unlessFatal_cases (s : State) (k : Answer) :
    (s.fatal ≠ .none ∧ unlessFatal s k = .next (respondHalted s)) ∨ (s.fatal = .none ∧ unlessFatal s k = k) := by
  unfold unlessFatal; split <;> simp_all

theorem whenLegal_cases (b : Bool) (s : State) (k : Answer) :
    (b = false ∧ whenLegal b s k = .next (raise .eIllegal s)) ∨ (b = true ∧ whenLegal b s k = k) := by
  cases b <;> simp [whenLegal]

theorem whenWidth_cases (n : Width) (s : State) (k : Answer) :
    (widthValid n = false ∧ whenWidth n s k = .next (raise .eWidth s)) ∨ (widthValid n = true ∧ whenWidth n s k = k) := by
  unfold whenWidth; cases widthValid n <;> simp

theorem unlessReaderHalted_cases (s : State) (k : Answer) :
    (s.rErr ≠ .none ∧ unlessReaderHalted s k = .next (respondHalted s)) ∨
    (s.rErr = .none ∧ unlessReaderHalted s k = k) := by
  unfold unlessReaderHalted; split <;> simp_all

theorem unlessWriterHalted_cases (s : State) (k : Answer) :
    (s.wErr ≠ .none ∧ unlessWriterHalted s k = .next (respondHalted s)) ∨
    (s.wErr = .none ∧ unlessWriterHalted s k = k) := by
  unfold unlessWriterHalted; split <;> simp_all

theorem widthValid_iff (n : Width) : widthValid n = true ↔ 1 ≤ n.toNat ∧ n.toNat ≤ 32 := by simp [widthValid]

theorem widthValid_false_iff (n : Width) : widthValid n = false ↔ n.toNat = 0 ∨ 32 < n.toNat := by
  rw [← Bool.not_eq_true, widthValid_iff]; omega

/-! Each guard when it lets a command through, and when it does not. -/

theorem unlessFatal_pass {s : State} (k : Answer) (h : s.fatal = .none) : unlessFatal s k = k := if_pos h

theorem unlessFatal_stop {s : State} (k : Answer) (h : s.fatal ≠ .none) :
    unlessFatal s k = .next (respond ⟨.eHalted, none⟩ s) := if_neg h

theorem whenLegal_pass {b : Bool} (s : State) (k : Answer) (h : b = true) : whenLegal b s k = k := if_pos h

theorem whenWidth_pass {n : Width} (s : State) (k : Answer) (h : 1 ≤ n.toNat ∧ n.toNat ≤ 32) : whenWidth n s k = k :=
  if_pos ((widthValid_iff n).2 h)

theorem whenWidth_stop {n : Width} (s : State) (k : Answer) (h : ¬ (1 ≤ n.toNat ∧ n.toNat ≤ 32)) :
    whenWidth n s k = .next (raise .eWidth s) := if_neg fun h' => h ((widthValid_iff n).1 h')

theorem unlessReaderHalted_pass {s : State} (k : Answer) (h : s.rErr = .none) : unlessReaderHalted s k = k := if_pos h

theorem unlessReaderHalted_stop {s : State} (k : Answer) (h : s.rErr ≠ .none) :
    unlessReaderHalted s k = .next (respond ⟨.eHalted, none⟩ s) := if_neg h

theorem unlessWriterHalted_pass {s : State} (k : Answer) (h : s.wErr = .none) : unlessWriterHalted s k = k := if_pos h

theorem unlessWriterHalted_stop {s : State} (k : Answer) (h : s.wErr ≠ .none) :
    unlessWriterHalted s k = .next (respond ⟨.eHalted, none⟩ s) := if_neg h

/-! ### What a command does when it completes -/

/-- A field write that fits: `n` bits of `imm` are put in (R72). -/
def Wrote (n : Nat) (imm : Word) (s u : State) : Prop :=
  (s.wp + n) / 8 ≤ s.cfg.wcap ∧ putField imm n s = some u ∧ Appends n s u

/-- The own effect of a command that completes: the state it leaves, before its response is sent, and the result the
response carries. -/
def Effect (i : Instr) (s u : State) (r : Option Word) : Prop :=
  match i with
  | .rbind len => len.toNat ≤ s.cfg.rcap ∧ u = startReader len.toNat s ∧ r = none
  | .wnew => u = startWriter s ∧ r = none
  | .status => u = s ∧ r = some (statusWord s)
  | .rread n => widthValid n = true ∧ s.rErr = .none ∧ s.rp + n.toNat ≤ 8 * s.rLen ∧ u = s.seekR (s.rp + n.toNat) ∧
      r = some (nextBits s n.toNat)
  | .ralign => s.rErr = .none ∧ u = s.seekR ((s.rp + 7) / 8 * 8) ∧ r = none
  | .ratend => s.rErr = .none ∧ u = s ∧ r = some (queryWord (s.rByte = s.rLen))
  | .wbits n imm => widthValid n = true ∧ s.wErr = .none ∧ Wrote n.toNat imm s u ∧ r = none
  | .wr8 imm => s.wErr = .none ∧ Wrote 8 imm s u ∧ r = none
  | .wr16 imm => s.wErr = .none ∧ Wrote 16 imm s u ∧ r = none
  | .wr32 imm => s.wErr = .none ∧ Wrote 32 imm s u ∧ r = none
  | .walign => s.wErr = .none ∧ r = none ∧ (s.wFill = 0 ∧ u = s ∨
      s.wFill ≠ 0 ∧ s.wLen + 1 ≤ s.cfg.wcap ∧ u = { s with wbuf := s.wbuf ++ [s.wAcc], wAcc := 0, wFill := 0 })
  | .wbit imm => bitOperandLegal imm = true ∧ s.wErr = .none ∧ Wrote 1 imm s u ∧ r = none
  | .wcount => s.wErr = .none ∧ u = s ∧ r = some (countWord s.wLen)
  | .wbegin => s.wErr = .none ∧ u = s ∧ r = some 0
  | .wend => s.wErr = .none ∧ u = s ∧ r = some (countWord s.wLen)
  | .wrdbyte idx => s.wErr = .none ∧ u = s ∧ ∃ b, s.wbuf[idx.toNat]? = some b ∧ r = some (byteWord b)

/-- The fault a command raises, with its condition, once the fatal halt is excluded (R95). -/
def Faults (i : Instr) (s : State) (f : FaultCode) : Prop :=
  match i with
  | .rbind len => f = .eBind ∧ s.cfg.rcap < len.toNat
  | .rread n => f = .eWidth ∧ widthValid n = false ∨
      f = .eOor ∧ widthValid n = true ∧ s.rErr = .none ∧ 8 * s.rLen < s.rp + n.toNat
  | .wbits n _ => f = .eWidth ∧ widthValid n = false ∨
      f = .eWovf ∧ widthValid n = true ∧ s.wErr = .none ∧ s.cfg.wcap < (s.wp + n.toNat) / 8
  | .wr8 _ => f = .eWovf ∧ s.wErr = .none ∧ s.cfg.wcap < (s.wp + 8) / 8
  | .wr16 _ => f = .eWovf ∧ s.wErr = .none ∧ s.cfg.wcap < (s.wp + 16) / 8
  | .wr32 _ => f = .eWovf ∧ s.wErr = .none ∧ s.cfg.wcap < (s.wp + 32) / 8
  | .walign => f = .eWovf ∧ s.wErr = .none ∧ s.wFill ≠ 0 ∧ s.cfg.wcap < s.wLen + 1
  | .wbit imm => f = .eIllegal ∧ bitOperandLegal imm = false ∨
      f = .eWovf ∧ bitOperandLegal imm = true ∧ s.wErr = .none ∧ s.cfg.wcap < (s.wp + 1) / 8
  | .wrdbyte idx => f = .eWidx ∧ s.wErr = .none ∧ s.wLen ≤ idx.toNat
  | .wnew | .status | .ralign | .ratend | .wcount | .wbegin | .wend => False

/-- Whether a command is refused in a state that is not fatally halted (R98, R99). -/
def Halted (i : Instr) (s : State) : Prop :=
  i.isConstructor = false ∧ i.widthInvalid = false ∧ i.wf = true ∧
    (i.half = .reader ∧ s.rErr ≠ .none ∨ i.half = .writer ∧ s.wErr ≠ .none)

/-- The three answers of a command. -/
inductive Answers (i : Instr) (s : State) : State → Prop
  | refused (h : s.fatal ≠ .none ∧ i ≠ .status ∨ s.fatal = .none ∧ Halted i s) :
      Answers i s (respond ⟨.eHalted, none⟩ s)
  | raised (f : FaultCode) (h0 : s.fatal = .none) (h : Faults i s f) :
      Answers i s (respond ⟨f.status, none⟩ (record f s))
  | completed (u : State) (r : Option Word) (h0 : s.fatal = .none ∨ i = .status) (h : Effect i s u r) :
      Answers i s (respond ⟨.ok, r⟩ u)

/-- What completing leaves alone: the other half, `FATAL`, `SRC`, the parameters, the port and the responses; and the
fault registers but for the two constructors (R22, R29). -/
structure EffectFrame (i : Instr) (s u : State) : Prop where
  fatal : u.fatal = s.fatal
  writer : i.half ≠ .writer → u.wbuf = s.wbuf ∧ u.wFill = s.wFill ∧ u.wAcc = s.wAcc ∧ u.wErr = s.wErr
  reader : i.half ≠ .reader → u.rByte = s.rByte ∧ u.rBit = s.rBit ∧ u.rLen = s.rLen ∧ u.rErr = s.rErr
  src : u.src = s.src
  cfg : u.cfg = s.cfg
  powerUp : u.powerUp = s.powerUp
  port : u.port = s.port
  responses : u.responses = s.responses
  bound : (∃ len, i = .rbind len) → u.rErr = .none
  rErr : (∀ len, i ≠ .rbind len) → u.rErr = s.rErr
  fresh : i = .wnew → u.wErr = .none
  wErr : i ≠ .wnew → u.wErr = s.wErr

theorem Effect.frame {i : Instr} {s u : State} {r : Option Word} (h : Effect i s u r) : EffectFrame i s u := by
  cases i <;> simp only [Effect] at h
  case rbind => obtain ⟨_, rfl, _⟩ := h; constructor <;> simp [Instr.half]
  case wnew => obtain ⟨rfl, _⟩ := h; constructor <;> simp [Instr.half]
  case status => obtain ⟨rfl, _⟩ := h; constructor <;> simp
  case rread => obtain ⟨_, _, _, rfl, _⟩ := h; constructor <;> simp [Instr.half]
  case walign => obtain ⟨_, _, ⟨_, rfl⟩ | ⟨_, _, rfl⟩⟩ := h <;> constructor <;> simp [Instr.half]
  case wbits => obtain ⟨_, _, ⟨_, _, ha⟩, _⟩ := h; rw [ha.frame]; constructor <;> simp [Instr.half]
  case wbit => obtain ⟨_, _, ⟨_, _, ha⟩, _⟩ := h; rw [ha.frame]; constructor <;> simp [Instr.half]
  case wr8 | wr16 | wr32 => obtain ⟨_, ⟨_, _, ha⟩, _⟩ := h; rw [ha.frame]; constructor <;> simp [Instr.half]
  case ralign | ratend | wcount | wbegin | wend | wrdbyte => obtain ⟨_, rfl, _⟩ := h; constructor <;> simp [Instr.half]

/-- That an answer is a next state, in one of the three ways. -/
def AnswersNext (i : Instr) (s : State) (k : Answer) : Prop := ∃ t, k = .next t ∧ Answers i s t

/-! One lemma per guard: what is left to show once it has passed. -/

theorem AnswersNext.viaFatal {i : Instr} {s : State} {k : Answer} (hi : i ≠ .status)
    (hk : s.fatal = .none → AnswersNext i s k) : AnswersNext i s (unlessFatal s k) := by
  rcases unlessFatal_cases s k with ⟨h, e⟩ | ⟨h, e⟩
  · exact ⟨_, e, .refused (.inl ⟨h, hi⟩)⟩
  · rw [e]; exact hk h

theorem AnswersNext.viaReader {i : Instr} {s : State} {k : Answer} (h0 : s.fatal = .none)
    (hi : i.isConstructor = false ∧ i.widthInvalid = false ∧ i.wf = true ∧ i.half = .reader)
    (hk : s.rErr = .none → AnswersNext i s k) : AnswersNext i s (unlessReaderHalted s k) := by
  rcases unlessReaderHalted_cases s k with ⟨h, e⟩ | ⟨h, e⟩
  · exact ⟨_, e, .refused (.inr ⟨h0, hi.1, hi.2.1, hi.2.2.1, .inl ⟨hi.2.2.2, h⟩⟩)⟩
  · rw [e]; exact hk h

theorem AnswersNext.viaWriter {i : Instr} {s : State} {k : Answer} (h0 : s.fatal = .none)
    (hi : i.isConstructor = false ∧ i.widthInvalid = false ∧ i.wf = true ∧ i.half = .writer)
    (hk : s.wErr = .none → AnswersNext i s k) : AnswersNext i s (unlessWriterHalted s k) := by
  rcases unlessWriterHalted_cases s k with ⟨h, e⟩ | ⟨h, e⟩
  · exact ⟨_, e, .refused (.inr ⟨h0, hi.1, hi.2.1, hi.2.2.1, .inr ⟨hi.2.2.2, h⟩⟩)⟩
  · rw [e]; exact hk h

theorem AnswersNext.viaWidth {i : Instr} {s : State} {k : Answer} {n : Width} (h0 : s.fatal = .none)
    (hf : widthValid n = false → Faults i s .eWidth) (hk : widthValid n = true → AnswersNext i s k) :
    AnswersNext i s (whenWidth n s k) := by
  rcases whenWidth_cases n s k with ⟨h, e⟩ | ⟨h, e⟩
  · exact ⟨_, e, .raised .eWidth h0 (hf h)⟩
  · rw [e]; exact hk h

theorem AnswersNext.viaLegal {i : Instr} {s : State} {k : Answer} {b : Bool} (h0 : s.fatal = .none)
    (hf : b = false → Faults i s .eIllegal) (hk : b = true → AnswersNext i s k) :
    AnswersNext i s (whenLegal b s k) := by
  rcases whenLegal_cases b s k with ⟨h, e⟩ | ⟨h, e⟩
  · exact ⟨_, e, .raised .eIllegal h0 (hf h)⟩
  · rw [e]; exact hk h

theorem AnswersNext.viaWrite {i : Instr} {s : State} {n : Nat} {imm : Word} (h0 : s.fatal = .none)
    (hf : s.cfg.wcap < (s.wp + n) / 8 → Faults i s .eWovf) (he : ∀ u, Wrote n imm s u → Effect i s u none) :
    AnswersNext i s (writeField n imm s) := by
  rcases writeField_cases n imm s with ⟨hc, h⟩ | ⟨hc, u, hp, ha, h⟩
  · exact ⟨_, h, .raised .eWovf h0 (hf hc)⟩
  · exact ⟨_, h, .completed u none (.inl h0) (he u ⟨hc, hp, ha⟩)⟩

theorem AnswersNext.done {i : Instr} {s : State} (u : State) (r : Option Word) (h0 : s.fatal = .none)
    (h : Effect i s u r) : AnswersNext i s (.next (respond ⟨.ok, r⟩ u)) := ⟨_, rfl, .completed u r (.inl h0) h⟩

theorem AnswersNext.fault {i : Instr} {s : State} (f : FaultCode) (h0 : s.fatal = .none) (h : Faults i s f) :
    AnswersNext i s (.next (raise f s)) := ⟨_, rfl, .raised f h0 h⟩

/-! One lemma per command whose own pseudocode decides something. -/

theorem rbindBody_answers (len : Word) (s : State) (h0 : s.fatal = .none) :
    AnswersNext (.rbind len) s (rbindBody len s) := by
  unfold rbindBody
  split
  · exact .fault .eBind h0 ⟨rfl, ‹_›⟩
  · exact .done _ _ h0 ⟨Nat.le_of_not_lt ‹_›, rfl, rfl⟩

theorem rreadBody_answers (n : Width) (s : State) (h0 : s.fatal = .none) (hv : widthValid n = true)
    (he : s.rErr = .none) : AnswersNext (.rread n) s (rreadBody n.toNat s) := by
  rw [rreadBody_eq _ _ ((widthValid_iff n).1 hv).2]
  split
  · exact .done _ _ h0 ⟨hv, he, ‹_›, rfl, rfl⟩
  · exact .fault .eOor h0 (.inr ⟨rfl, hv, he, Nat.lt_of_not_le ‹_›⟩)

theorem walignBody_answers (s : State) (h0 : s.fatal = .none) (he : s.wErr = .none) :
    AnswersNext .walign s (walignBody s) := by
  unfold walignBody
  split
  · exact .done s none h0 ⟨he, rfl, .inl ⟨‹_›, rfl⟩⟩
  · unfold commitChecked
    split
    · exact .fault .eWovf h0 ⟨rfl, he, ‹_›, ‹_›⟩
    · rename_i hf hc
      rw [commitOpen_eq (Nat.lt_of_succ_le (Nat.le_of_not_lt hc))]
      exact .done _ none h0 ⟨he, rfl, .inr ⟨hf, Nat.le_of_not_lt hc, rfl⟩⟩

theorem wrdbyteBody_answers (idx : Word) (s : State) (h0 : s.fatal = .none) (he : s.wErr = .none) :
    AnswersNext (.wrdbyte idx) s (wrdbyteBody idx s) := by
  unfold wrdbyteBody
  split
  · exact .fault .eWidx h0 ⟨rfl, he, ‹_›⟩
  · rename_i h
    have hb := List.getElem?_eq_getElem (Nat.lt_of_not_le h : idx.toNat < s.wbuf.length)
    rw [readOut_eq, hb]
    exact .done s _ h0 ⟨he, rfl, _, hb, rfl⟩

/-- Every command answers with a next state, in one of the three ways (R93, R106). -/
theorem exec_answers (i : Instr) (s : State) : AnswersNext i s (exec i s) := by
  cases i with
  | status => exact ⟨_, rfl, .completed s _ (.inr rfl) ⟨rfl, rfl⟩⟩
  | rbind len => exact .viaFatal (by simp) fun h0 => rbindBody_answers len s h0
  | wnew => exact .viaFatal (by simp) fun h0 => .done _ _ h0 ⟨rfl, rfl⟩
  | rread n =>
    exact .viaFatal (by simp) fun h0 => .viaWidth h0 (fun h => .inl ⟨rfl, h⟩) fun hv =>
      .viaReader h0 ⟨rfl, congrArg not hv, rfl, rfl⟩ fun he => rreadBody_answers n s h0 hv he
  | ralign =>
    refine .viaFatal (by simp) fun h0 => .viaReader h0 ⟨rfl, rfl, rfl, rfl⟩ fun he => ?_
    rw [ralignBody_eq]
    exact .done _ _ h0 ⟨he, rfl, rfl⟩
  | ratend =>
    exact .viaFatal (by simp) fun h0 => .viaReader h0 ⟨rfl, rfl, rfl, rfl⟩ fun he => .done _ _ h0 ⟨he, rfl, rfl⟩
  | wbits n imm =>
    exact .viaFatal (by simp) fun h0 => .viaWidth h0 (fun h => .inl ⟨rfl, h⟩) fun hv =>
      .viaWriter h0 ⟨rfl, congrArg not hv, rfl, rfl⟩ fun he =>
        .viaWrite h0 (fun hc => .inr ⟨rfl, hv, he, hc⟩) fun _ hu => ⟨hv, he, hu, rfl⟩
  | wr8 imm =>
    exact .viaFatal (by simp) fun h0 => .viaWriter h0 ⟨rfl, rfl, rfl, rfl⟩ fun he =>
      .viaWrite h0 (fun hc => ⟨rfl, he, hc⟩) fun _ hu => ⟨he, hu, rfl⟩
  | wr16 imm =>
    exact .viaFatal (by simp) fun h0 => .viaWriter h0 ⟨rfl, rfl, rfl, rfl⟩ fun he =>
      .viaWrite h0 (fun hc => ⟨rfl, he, hc⟩) fun _ hu => ⟨he, hu, rfl⟩
  | wr32 imm =>
    exact .viaFatal (by simp) fun h0 => .viaWriter h0 ⟨rfl, rfl, rfl, rfl⟩ fun he =>
      .viaWrite h0 (fun hc => ⟨rfl, he, hc⟩) fun _ hu => ⟨he, hu, rfl⟩
  | walign =>
    exact .viaFatal (by simp) fun h0 => .viaWriter h0 ⟨rfl, rfl, rfl, rfl⟩ fun he => walignBody_answers s h0 he
  | wbit imm =>
    exact .viaFatal (by simp) fun h0 => .viaLegal h0 (fun h => .inl ⟨rfl, h⟩) fun hb =>
      .viaWriter h0 ⟨rfl, rfl, hb, rfl⟩ fun he =>
        .viaWrite h0 (fun hc => .inr ⟨rfl, hb, he, hc⟩) fun _ hu => ⟨hb, he, hu, rfl⟩
  | wcount =>
    exact .viaFatal (by simp) fun h0 => .viaWriter h0 ⟨rfl, rfl, rfl, rfl⟩ fun he => .done _ _ h0 ⟨he, rfl, rfl⟩
  | wbegin =>
    exact .viaFatal (by simp) fun h0 => .viaWriter h0 ⟨rfl, rfl, rfl, rfl⟩ fun he => .done _ _ h0 ⟨he, rfl, rfl⟩
  | wend =>
    exact .viaFatal (by simp) fun h0 => .viaWriter h0 ⟨rfl, rfl, rfl, rfl⟩ fun he => .done _ _ h0 ⟨he, rfl, rfl⟩
  | wrdbyte idx =>
    exact .viaFatal (by simp) fun h0 => .viaWriter h0 ⟨rfl, rfl, rfl, rfl⟩ fun he => wrdbyteBody_answers idx s h0 he

/-- All that a command can do, from the state it leaves. -/
theorem exec_cases {i : Instr} {s t : State} (h : exec i s = .next t) : Answers i s t := by
  obtain ⟨u, hu, ha⟩ := exec_answers i s
  rw [hu] at h; cases h; exact ha

/-- All that a step can do: nothing while the port is empty, or the host's oldest transaction. -/
inductive Steps (s : State) : State → Prop
  | idle (h : s.port = []) : Steps s s
  | command (w : CmdWord) (rest : List Transaction) (i : Instr) (t : State) (h : s.port = .command w :: rest)
      (hd : decode w = .ok i) (ha : Answers i (takeTransaction rest s) t) : Steps s t
  | illegal (w : CmdWord) (rest : List Transaction) (h : s.port = .command w :: rest) (hd : ∀ i, decode w ≠ .ok i)
      (h0 : s.fatal = .none) : Steps s (respond ⟨.eIllegal, none⟩ (record .eIllegal (takeTransaction rest s)))
  | illegalHalted (w : CmdWord) (rest : List Transaction) (h : s.port = .command w :: rest)
      (hd : ∀ i, decode w ≠ .ok i) (h0 : s.fatal ≠ .none) :
      Steps s (respond ⟨.eHalted, none⟩ (takeTransaction rest s))
  | sourceWrite (a : Nat) (b : Byte) (rest : List Transaction) (h : s.port = .sourceWrite a b :: rest)
      (hl : s.rLen ≤ a) (hc : a < s.cfg.rcap) :
      Steps s { takeTransaction rest s with src := Memory.write s.src a b }
  | reset (rest : List Transaction) (h : s.port = .reset :: rest) : Steps s (resetUnit (takeTransaction rest s))

/-- A command word that matches no row, in every state (R50, R99). -/
theorem execute_illegal {w : CmdWord} (hd : ∀ i, decode w ≠ .ok i) (s : State) : execute w s = executeIllegal s := by
  unfold execute
  split
  · exact absurd ‹_› (hd _)
  · rfl

/-- All that a step can do, from the state it leaves. -/
theorem step_cases {s t : State} (h : step s = .next t) : Steps s t := by
  unfold step at h
  split at h
  · cases h; exact .idle ‹_›
  · rename_i x rest hp
    cases x with
    | command w =>
      change execute w (takeTransaction rest s) = .next t at h
      cases hd : decode w with
      | ok i =>
        have he : execute w (takeTransaction rest s) = exec i (takeTransaction rest s) := by simp [execute, hd]
        exact .command w rest i t hp hd (exec_cases (he ▸ h))
      | error e =>
        have hn : ∀ i, decode w ≠ .ok i := fun i hi => by rw [hd] at hi; cases hi
        rw [execute_illegal hn, executeIllegal] at h
        rcases unlessFatal_cases (takeTransaction rest s) (.next (raise .eIllegal (takeTransaction rest s)))
          with ⟨h0, e'⟩ | ⟨h0, e'⟩
        · rw [e'] at h; cases h; exact .illegalHalted w rest hp hn h0
        · rw [e'] at h; cases h; exact .illegal w rest hp hn h0
    | sourceWrite a b =>
      change hostWriteSrc a b (takeTransaction rest s) = .next t at h
      unfold hostWriteSrc at h
      split at h
      · cases h
      · split at h
        · cases h
        · cases h
          exact .sourceWrite a b rest hp (Nat.le_of_not_lt ‹_›) (Nat.lt_of_not_le ‹_›)
    | reset => cases h; exact .reset rest hp

/-! ### Lists of commands -/

/-- A list of commands runs its first command and then the rest. -/
theorem runCommands_cons {i : Instr} {is : List Instr} {s t u : State} (h : exec i s = .next u) :
    runCommands (i :: is) s = .next t ↔ runCommands is u = .next t := by
  rw [runCommands, h]

/-- A list of commands that ran is its first command and then the rest. -/
theorem runCommands_cons_inv {i : Instr} {is : List Instr} {s t : State} (h : runCommands (i :: is) s = .next t) :
    ∃ u, exec i s = .next u ∧ runCommands is u = .next t := by
  obtain ⟨u, hu, _⟩ := exec_answers i s
  exact ⟨u, hu, (runCommands_cons hu).1 h⟩

/-- Two lists of commands run one after the other. -/
theorem runCommands_append {is js : List Instr} {s t u : State} (h : runCommands is s = .next u)
    (k : runCommands js u = .next t) : runCommands (is ++ js) s = .next t := by
  induction is generalizing s with
  | nil => cases h; exact k
  | cons i is ih =>
    obtain ⟨v, hv, hu⟩ := runCommands_cons_inv h
    exact (runCommands_cons hv).2 (ih hu)

end Sys2Proof.Machine
end

