-- ==== Sys2Proof/Laws/Invariant.lean ====
section
/-! SUPPORT. What completing a command keeps of the invariants, and what the commands answer once their checks have
passed. -/

namespace Sys2Proof.Machine

/-! ### Invariants -/

/-- The reader invariant is a bound on the linear position (R13). -/
theorem readerInv_iff (s : State) : s.ReaderInv ↔ s.rp ≤ 8 * s.rLen := by
  have := s.rBit.isLt
  unfold State.ReaderInv State.rp
  constructor
  · intro hi
    rcases Nat.lt_or_eq_of_le hi.1 with h | h
    · omega
    · rw [hi.2 h]; simp; omega
  · intro h
    exact ⟨by omega, fun h => Fin.ext (by simp; omega)⟩

/-- An open byte with no filled bit is zero (R17). -/
theorem WriterInv.acc_zero {s : State} (hi : s.WriterInv) (h : s.wFill = 0) : s.wAcc = 0 := by
  apply BitVec.eq_of_getLsbD_eq
  intro j hj
  rw [hi j (by rw [h]; simpa using hj)]; simp

theorem Effect.readerInv {i : Instr} {s u : State} {r : Option Word} (h : Effect i s u r) (hi : s.ReaderInv) :
    u.ReaderInv := by
  have hp := (readerInv_iff s).1 hi
  cases i <;> simp only [Effect] at h
  case rbind => obtain ⟨_, rfl, _⟩ := h; simp [State.ReaderInv]
  case rread => obtain ⟨_, _, hl, rfl, _⟩ := h; exact (readerInv_iff _).2 (by rw [seekR_rp]; exact hl)
  case ralign =>
    obtain ⟨_, rfl, _⟩ := h
    refine (readerInv_iff _).2 ?_
    rw [seekR_rp]; change _ ≤ 8 * s.rLen; omega
  case wnew => obtain ⟨rfl, _⟩ := h; exact hi
  case status => obtain ⟨rfl, _⟩ := h; exact hi
  case walign => obtain ⟨_, _, ⟨_, rfl⟩ | ⟨_, _, rfl⟩⟩ := h <;> exact hi
  case wbits => obtain ⟨_, _, ⟨_, _, ha⟩, _⟩ := h; rw [ha.frame]; exact hi
  case wbit => obtain ⟨_, _, ⟨_, _, ha⟩, _⟩ := h; rw [ha.frame]; exact hi
  case wr8 | wr16 | wr32 => obtain ⟨_, ⟨_, _, ha⟩, _⟩ := h; rw [ha.frame]; exact hi
  case ratend | wcount | wbegin | wend | wrdbyte => obtain ⟨_, rfl, _⟩ := h; exact hi

theorem Effect.writerInv {i : Instr} {s u : State} {r : Option Word} (h : Effect i s u r) (hi : s.WriterInv) :
    u.WriterInv := by
  cases i <;> simp only [Effect] at h
  case wnew => obtain ⟨rfl, _⟩ := h; intro i _; simp
  case status => obtain ⟨rfl, _⟩ := h; exact hi
  case rread => obtain ⟨_, _, _, rfl, _⟩ := h; exact hi
  case walign =>
    obtain ⟨_, _, ⟨_, rfl⟩ | ⟨_, _, rfl⟩⟩ := h
    · exact hi
    · intro i _; simp
  case wbits => obtain ⟨_, _, ⟨_, hp, _⟩, _⟩ := h; exact (putField_wBits _ _ hi hp).2
  case wbit => obtain ⟨_, _, ⟨_, hp, _⟩, _⟩ := h; exact (putField_wBits _ _ hi hp).2
  case wr8 | wr16 | wr32 => obtain ⟨_, ⟨_, hp, _⟩, _⟩ := h; exact (putField_wBits _ _ hi hp).2
  case rbind | ralign | ratend | wcount | wbegin | wend | wrdbyte => obtain ⟨_, rfl, _⟩ := h; exact hi

/-- A field write that fits stays within the capacity. -/
theorem Wrote.capacity {n : Nat} {imm : Word} {s u : State} (h : Wrote n imm s u) :
    u.wLen ≤ u.cfg.wcap ∧ u.rLen = s.rLen ∧ u.cfg = s.cfg := by
  obtain ⟨hc, _, ha⟩ := h
  have hcfg : u.cfg = s.cfg := by rw [ha.frame]
  have hl : u.rLen = s.rLen := by rw [ha.frame]
  exact ⟨by rw [wLen_eq, ha.moves, hcfg]; exact hc, hl, hcfg⟩

theorem Effect.capacity {i : Instr} {s u : State} {r : Option Word} (h : Effect i s u r)
    (hi : s.wLen ≤ s.cfg.wcap ∧ s.rLen ≤ s.cfg.rcap) : u.wLen ≤ u.cfg.wcap ∧ u.rLen ≤ u.cfg.rcap := by
  cases i <;> simp only [Effect] at h
  case rbind => obtain ⟨h, rfl, _⟩ := h; exact ⟨hi.1, h⟩
  case wnew => obtain ⟨rfl, _⟩ := h; exact ⟨Nat.zero_le _, hi.2⟩
  case status => obtain ⟨rfl, _⟩ := h; exact hi
  case rread => obtain ⟨_, _, _, rfl, _⟩ := h; exact hi
  case walign =>
    obtain ⟨_, _, ⟨_, rfl⟩ | ⟨_, h, rfl⟩⟩ := h
    · exact hi
    · exact ⟨by simpa [State.wLen] using h, hi.2⟩
  case wbits => obtain ⟨_, _, h, _⟩ := h; obtain ⟨a, b, c⟩ := h.capacity; exact ⟨a, by rw [b, c]; exact hi.2⟩
  case wbit => obtain ⟨_, _, h, _⟩ := h; obtain ⟨a, b, c⟩ := h.capacity; exact ⟨a, by rw [b, c]; exact hi.2⟩
  case wr8 | wr16 | wr32 => obtain ⟨_, h, _⟩ := h; obtain ⟨a, b, c⟩ := h.capacity; exact ⟨a, by rw [b, c]; exact hi.2⟩
  case ralign | ratend | wcount | wbegin | wend | wrdbyte => obtain ⟨_, rfl, _⟩ := h; exact hi

/-! ### What the commands answer once their checks have passed -/

theorem exec_rread_ok (n : Width) (s : State) (h0 : s.fatal = .none) (he : s.rErr = .none) (hw : legalWidth n)
    (hl : s.rp + n.toNat ≤ 8 * s.rLen) :
    exec (.rread n) s = .next (respond ⟨.ok, some (nextBits s n.toNat)⟩ (s.seekR (s.rp + n.toNat))) :=
  (unlessFatal_pass _ h0).trans ((whenWidth_pass _ _ hw).trans ((unlessReaderHalted_pass _ he).trans
    ((rreadBody_eq _ _ hw.2).trans (if_pos hl))))

theorem exec_ralign_ok (s : State) (h0 : s.fatal = .none) (he : s.rErr = .none) :
    exec .ralign s = .next (respond ⟨.ok, none⟩ (s.seekR ((s.rp + 7) / 8 * 8))) :=
  (unlessFatal_pass _ h0).trans ((unlessReaderHalted_pass _ he).trans (ralignBody_eq s))

theorem exec_ratend_ok (s : State) (h0 : s.fatal = .none) (he : s.rErr = .none) :
    exec .ratend s = .next (respond ⟨.ok, some (queryWord (s.rByte = s.rLen))⟩ s) :=
  (unlessFatal_pass _ h0).trans ((unlessReaderHalted_pass _ he).trans rfl)

/-- Every write command is the field write of its width and its value (R72, R74, R75, R76, R78). -/
theorem exec_write (i : Instr) (k : Nat) (s : State) (hw : i.wf = true) (hv : i.widthInvalid = false)
    (hk : i.writeWidth = some k) (h0 : s.fatal = .none) (he : s.wErr = .none) :
    exec i s = writeField k i.valueField s := by
  cases i <;> simp only [Instr.writeWidth, reduceCtorEq, Option.some.injEq] at hk <;> subst hk
  case wbits n imm =>
    have hn : 1 ≤ n.toNat ∧ n.toNat ≤ 32 := by simpa [Instr.widthInvalid] using hv
    exact (unlessFatal_pass _ h0).trans ((whenWidth_pass _ _ hn).trans (unlessWriterHalted_pass _ he))
  case wbit => exact (unlessFatal_pass _ h0).trans ((whenLegal_pass _ _ hw).trans (unlessWriterHalted_pass _ he))
  all_goals exact (unlessFatal_pass _ h0).trans (unlessWriterHalted_pass _ he)

theorem exec_walign_ok (s : State) (h0 : s.fatal = .none) (he : s.wErr = .none)
    (hc : s.wFill ≠ 0 → s.wLen + 1 ≤ s.cfg.wcap) : exec .walign s = .next (respond ⟨.ok, none⟩
      (if s.wFill = 0 then s else { s with wbuf := s.wbuf ++ [s.wAcc], wAcc := 0, wFill := 0 })) := by
  refine (unlessFatal_pass _ h0).trans ((unlessWriterHalted_pass _ he).trans ?_)
  unfold walignBody commitChecked
  by_cases hf : s.wFill = 0
  · rw [if_pos hf, if_pos hf]; rfl
  · have := hc hf
    rw [if_neg hf, if_neg hf, if_neg (by omega), commitOpen_eq (by omega)]; rfl

theorem exec_wrdbyte_ok (idx : Word) (s : State) (h0 : s.fatal = .none) (he : s.wErr = .none) (b : Byte)
    (hb : s.wbuf[idx.toNat]? = some b) : exec (.wrdbyte idx) s = .next (respond ⟨.ok, some (byteWord b)⟩ s) := by
  refine (unlessFatal_pass _ h0).trans ((unlessWriterHalted_pass _ he).trans ?_)
  rw [wrdbyteBody_eq, hb]

end Sys2Proof.Machine
end

