-- ==== Sys2Proof/Laws/PerInstr.lean ====
section
/-! SUPPORT. Per command: decoding its command word gives the command back. -/

namespace Sys2Proof.Laws.RoundTrip

/-- The word the encoder writes for a well-formed command decodes to that command (R45, R48, R53). -/
def Statement (i : Instr) : Prop := i.wf = true → decode (encode i) = .ok i

/-- A command decodes from its word if its row of the opcode map is found by its opcode, its must-be-zero bits are clear,
and the row builds it from its operand fields. -/
theorem of_row {i : Instr} {r : Row} (hr : r ∈ opcodeMap) (ho : r.op = i.opcode)
    (hm : i.wf = true → r.format.mbzClear i.widthField i.valueField = true)
    (hb : r.build i.widthField i.valueField = i) : Statement i := by
  intro hw
  have hf := find_row hr (op := CmdWord.op (encode i)) (by simp [encode, ho])
  rw [decode_of_row hf]
  simp [encode, hm hw, hb]

theorem rbind (len : Word) : Statement (.rbind len) :=
  of_row (r := ⟨0x01, .I, fun _ imm => .rbind imm⟩) (by simp [opcodeMap]) rfl (fun _ => rfl) rfl
theorem wnew : Statement .wnew :=
  of_row (r := ⟨0x02, .Z, fun _ _ => .wnew⟩) (by simp [opcodeMap]) rfl (fun _ => rfl) rfl
theorem status : Statement .status :=
  of_row (r := ⟨0x03, .Z, fun _ _ => .status⟩) (by simp [opcodeMap]) rfl (fun _ => rfl) rfl
theorem rread (n : Width) : Statement (.rread n) :=
  of_row (r := ⟨0x10, .N, fun n _ => .rread n⟩) (by simp [opcodeMap]) rfl (fun _ => rfl) rfl
theorem ralign : Statement .ralign :=
  of_row (r := ⟨0x11, .Z, fun _ _ => .ralign⟩) (by simp [opcodeMap]) rfl (fun _ => rfl) rfl
theorem ratend : Statement .ratend :=
  of_row (r := ⟨0x12, .Z, fun _ _ => .ratend⟩) (by simp [opcodeMap]) rfl (fun _ => rfl) rfl
theorem wbits (n : Width) (imm : Word) : Statement (.wbits n imm) :=
  of_row (r := ⟨0x20, .NI, fun n imm => .wbits n imm⟩) (by simp [opcodeMap]) rfl (fun _ => rfl) rfl
theorem wr8 (imm : Word) : Statement (.wr8 imm) :=
  of_row (r := ⟨0x21, .I, fun _ imm => .wr8 imm⟩) (by simp [opcodeMap]) rfl (fun _ => rfl) rfl
theorem wr16 (imm : Word) : Statement (.wr16 imm) :=
  of_row (r := ⟨0x22, .I, fun _ imm => .wr16 imm⟩) (by simp [opcodeMap]) rfl (fun _ => rfl) rfl
theorem wr32 (imm : Word) : Statement (.wr32 imm) :=
  of_row (r := ⟨0x23, .I, fun _ imm => .wr32 imm⟩) (by simp [opcodeMap]) rfl (fun _ => rfl) rfl
theorem walign : Statement .walign :=
  of_row (r := ⟨0x24, .Z, fun _ _ => .walign⟩) (by simp [opcodeMap]) rfl (fun _ => rfl) rfl
theorem wbit (imm : Word) : Statement (.wbit imm) :=
  of_row (r := ⟨0x25, .B, fun _ imm => .wbit imm⟩) (by simp [opcodeMap]) rfl
    (fun h => by
      have : imm >>> 1 = 0 := shiftRight_one_eq_zero.2 (by simpa [Instr.wf] using h)
      simp [Format.mbzClear, Instr.widthField, Instr.valueField, this]) rfl
theorem wcount : Statement .wcount :=
  of_row (r := ⟨0x26, .Z, fun _ _ => .wcount⟩) (by simp [opcodeMap]) rfl (fun _ => rfl) rfl
theorem wbegin : Statement .wbegin :=
  of_row (r := ⟨0x27, .Z, fun _ _ => .wbegin⟩) (by simp [opcodeMap]) rfl (fun _ => rfl) rfl
theorem wend : Statement .wend :=
  of_row (r := ⟨0x28, .Z, fun _ _ => .wend⟩) (by simp [opcodeMap]) rfl (fun _ => rfl) rfl
theorem wrdbyte (idx : Word) : Statement (.wrdbyte idx) :=
  of_row (r := ⟨0x29, .I, fun _ imm => .wrdbyte imm⟩) (by simp [opcodeMap]) rfl (fun _ => rfl) rfl

end Sys2Proof.Laws.RoundTrip
end

