-- ==== Sys2Proof/Tests/Slice0.lean ====
section
/-! SUPPORT. The model's own tests. Every expected value is the spec's: the encoding and step vectors of
spec/95_test_vectors.md (V1 to V13, P4), the examples of the command rules, the table of R54. The witnesses at the end
meet the hypotheses of the statements, clause by clause, at boundary values. -/

namespace Sys2Proof.Tests
open Sys2Proof Sys2Proof.Machine

/-! ### Small states -/

/-- A reader bound over bytes, with its cursor. -/
def reading (bytes : List Byte) (byte : Nat) (bit : Fin 8) : State :=
  { State.reset with src := (List.range bytes.length).zip bytes, rLen := bytes.length, rByte := byte, rBit := bit }

/-- A writer that has committed bytes and holds an open byte. -/
def writing (bytes : List Byte) (fill : Fin 8) (acc : Byte) : State :=
  { State.reset with wbuf := bytes, wFill := fill, wAcc := acc }

/-- The same with given capacities. -/
def within (rcap wcap : Nat) (s : State) : State := { s with cfg := ⟨rcap, wcap⟩ }

/-- The state with a transaction pending. -/
def pending (x : Transaction) (s : State) : State := { s with port := [x] }

/-- The next state of an answer. -/
def after : Answer → Option State
  | .next s => some s
  | .fault _ | .refused _ => none

/-- The word of an accepted word. -/
def decoded (w : CmdWord) : Option Instr :=
  match decode w with
  | .ok i => some i
  | .error _ => none

/-- Why a word is illegal. -/
def rejected (w : CmdWord) : Option DecodeError :=
  match decode w with
  | .ok _ => none
  | .error e => some e

/-! ### WellFormed -/

theorem test_wf_refuses_bit_operand_two : Instr.wf (.wbit 2) = false := by decide
theorem test_wf_refuses_bit_operand_high_bit : Instr.wf (.wbit 0x80000000) = false := by decide
theorem test_wf_accepts_bit_operands : Instr.wf (.wbit 0) = true ∧ Instr.wf (.wbit 1) = true := by decide

/-! ### Decoding: the words of V13, every constructor -/

theorem test_decode_rbind : decoded 0x010000000004 = some (.rbind 4) := by decide
theorem test_decode_wnew : decoded 0x020000000000 = some .wnew := by decide
theorem test_decode_status : decoded 0x030000000000 = some .status := by decide
theorem test_decode_rread : decoded 0x102000000000 = some (.rread 32) := by decide
theorem test_decode_ralign : decoded 0x110000000000 = some .ralign := by decide
theorem test_decode_ratend : decoded 0x120000000000 = some .ratend := by decide
theorem test_decode_wbits : decoded 0x2020FFFFFFFF = some (.wbits 32 0xFFFFFFFF) := by decide
theorem test_decode_wr8 : decoded 0x21000000007E = some (.wr8 0x7E) := by decide
theorem test_decode_wr16 : decoded 0x22000000BEEF = some (.wr16 0xBEEF) := by decide
theorem test_decode_wr32 : decoded 0x2300DEADBEEF = some (.wr32 0xDEADBEEF) := by decide
theorem test_decode_walign : decoded 0x240000000000 = some .walign := by decide
theorem test_decode_wbit : decoded 0x250000000001 = some (.wbit 1) := by decide
theorem test_decode_wcount : decoded 0x260000000000 = some .wcount := by decide
theorem test_decode_wbegin : decoded 0x270000000000 = some .wbegin := by decide
theorem test_decode_wend : decoded 0x280000000000 = some .wend := by decide
theorem test_decode_wrdbyte : decoded 0x290000000003 = some (.wrdbyte 3) := by decide

/-! One word of each family bit by bit, op then n then imm (R45, R48). -/

theorem test_decode_rread_11_bits :
    decoded 0b000100000000101100000000000000000000000000000000 = some (.rread 11) := by decide
theorem test_decode_wbits_11_bits :
    decoded 0b001000000000101100000000000000000000000000011000 = some (.wbits 11 24) := by decide
theorem test_decode_wrdbyte_3_bits :
    decoded 0b001010010000000000000000000000000000000000000011 = some (.wrdbyte 3) := by decide
theorem test_decode_rbind_4_bits :
    decoded 0b000000010000000000000000000000000000000000000100 = some (.rbind 4) := by decide

/-! The illegal words of V12. -/

theorem test_decode_all_zero : rejected 0x000000000000 = some .unassignedOpcode := by decide
theorem test_decode_all_ones : rejected 0xFFFFFFFFFFFF = some .unassignedOpcode := by decide
theorem test_decode_after_status : rejected 0x040000000000 = some .unassignedOpcode := by decide
theorem test_decode_after_ratend : rejected 0x130000000000 = some .unassignedOpcode := by decide
theorem test_decode_after_wrdbyte : rejected 0x2A0000000000 = some .unassignedOpcode := by decide
theorem test_decode_ralign_n_set : rejected 0x110100000000 = some .mbzBitSet := by decide
theorem test_decode_walign_imm_set : rejected 0x240000000001 = some .mbzBitSet := by decide
theorem test_decode_rread_imm_set : rejected 0x100800000001 = some .mbzBitSet := by decide
theorem test_decode_wr8_n_set : rejected 0x210800000012 = some .mbzBitSet := by decide
theorem test_decode_wbit_two : rejected 0x250000000002 = some .mbzBitSet := by decide
theorem test_decode_status_imm_set : rejected 0x030000000001 = some .mbzBitSet := by decide

theorem test_decodeTableWord : decodeTableWord 48 0x100B00000000 = some (.rread 11) ∧ decodeTableWord 48 0 = none := by
  decide

/-! ### One step of each command -/

/-- R60's example: after reset with four source bytes, RBIND 4. -/
theorem test_rbind : after (exec (.rbind 4) (reading [0x00, 0x05, 0x03, 0x01] 2 5)) =
    some { reading [0x00, 0x05, 0x03, 0x01] 0 0 with responses := [⟨.ok, none⟩] } := by decide

/-- V5: RBIND 5 with RCAP = 4. -/
theorem test_rbind_beyond_rcap : after (exec (.rbind 5) (within 4 4 State.reset)) =
    some { within 4 4 State.reset with rErr := .eBind, responses := [⟨.eBind, none⟩] } := by decide

/-- R70's example, in a halted writer half. -/
theorem test_wnew : after (exec .wnew { writing [1, 2, 3] 3 0xE0 with wErr := .eWidx }) =
    some { State.reset with responses := [⟨.ok, none⟩] } := by decide

/-- V12: STATUS with R.ERR = 3 and FATAL = 2. -/
theorem test_status : after (exec .status { State.reset with rErr := .eOor, fatal := .eWidth }) =
    some { State.reset with rErr := .eOor, fatal := .eWidth, responses := [⟨.ok, some 0x203⟩] } := by decide

/-- V10: STATUS with W.ERR = 5. -/
theorem test_status_writer : statusWord { State.reset with wErr := .eWovf } = 0x50 := by decide

/-- V1 step 4: six bits across a byte boundary. -/
theorem test_rread_across_bytes : after (exec (.rread 6) (reading [0xA5, 0xC3] 0 7)) =
    some { reading [0xA5, 0xC3] 1 5 with responses := [⟨.ok, some 0x38⟩] } := by decide

/-- V2 step 3: 32 bits from five bytes. -/
theorem test_rread_five_bytes : after (exec (.rread 32) (reading [0x12, 0x34, 0x56, 0x78, 0x9A] 0 4)) =
    some { reading [0x12, 0x34, 0x56, 0x78, 0x9A] 4 4 with responses := [⟨.ok, some 0x23456789⟩] } := by decide

/-- V4 steps 6 and 7. -/
theorem test_ralign : after (exec .ralign (reading [0xA5, 0xC3] 0 3)) =
    some { reading [0xA5, 0xC3] 1 0 with responses := [⟨.ok, none⟩] } := by decide
theorem test_ralign_on_boundary : after (exec .ralign (reading [0xA5, 0xC3] 1 0)) =
    some { reading [0xA5, 0xC3] 1 0 with responses := [⟨.ok, none⟩] } := by decide

/-- V4 steps 9 and 11. -/
theorem test_ratend_bits_left : after (exec .ratend (reading [0xA5, 0xC3] 1 4)) =
    some { reading [0xA5, 0xC3] 1 4 with responses := [⟨.ok, some 0⟩] } := by decide
theorem test_ratend_at_end : after (exec .ratend (reading [0xA5, 0xC3] 2 0)) =
    some { reading [0xA5, 0xC3] 2 0 with responses := [⟨.ok, some 1⟩] } := by decide

/-- V6 step 1: only the low four bits are written. -/
theorem test_wbits_masks : after (exec (.wbits 4 0xFFFFFFFB) State.reset) =
    some { writing [] 4 0xB0 with responses := [⟨.ok, none⟩] } := by decide

/-- V7 step 2: 32 bits at fill count 3. -/
theorem test_wbits_unaligned : after (exec (.wbits 32 0x80000001) (writing [] 3 0xA0)) =
    some { writing [0xB0, 0x00, 0x00, 0x00] 3 0x20 with responses := [⟨.ok, none⟩] } := by decide

/-- V6 step 4. -/
theorem test_wr8 : after (exec (.wr8 0x1FF) (writing [0xB0] 0 0)) =
    some { writing [0xB0, 0xFF] 0 0 with responses := [⟨.ok, none⟩] } := by decide

/-- V6 step 5, and P4 step 4 at fill count 3. -/
theorem test_wr16 : after (exec (.wr16 0xFFFF1234) (writing [0xB0, 0xFF] 0 0)) =
    some { writing [0xB0, 0xFF, 0x12, 0x34] 0 0 with responses := [⟨.ok, none⟩] } := by decide
theorem test_wr16_unaligned : after (exec (.wr16 0xBEEF) (writing [0xD5] 3 0x60)) =
    some { writing [0xD5, 0x77, 0xDD] 3 0xE0 with responses := [⟨.ok, none⟩] } := by decide

/-- V6 step 6. -/
theorem test_wr32 : after (exec (.wr32 0xDEADBEEF) (writing [] 0 0)) =
    some { writing [0xDE, 0xAD, 0xBE, 0xEF] 0 0 with responses := [⟨.ok, none⟩] } := by decide

/-- V7 step 4. -/
theorem test_walign : after (exec .walign (writing [0xB0] 3 0x20)) =
    some { writing [0xB0, 0x20] 0 0 with responses := [⟨.ok, none⟩] } := by decide

/-- V10 step 4, with WCAP = 1. -/
theorem test_walign_beyond_wcap : after (exec .walign (within 9 1 (writing [0xAA] 4 0xF0))) =
    some { within 9 1 (writing [0xAA] 4 0xF0) with wErr := .eWovf, responses := [⟨.eWovf, none⟩] } := by decide

/-- V8 steps 2 and 8. -/
theorem test_wbit_zero_advances : after (exec (.wbit 0) (writing [] 1 0x80)) =
    some { writing [] 2 0x80 with responses := [⟨.ok, none⟩] } := by decide
theorem test_wbit_commits_the_byte : after (exec (.wbit 1) (writing [] 7 0xB0)) =
    some { writing [0xB1] 0 0 with responses := [⟨.ok, none⟩] } := by decide

/-- V10 step 3: the open byte is not counted. -/
theorem test_wcount : after (exec .wcount (writing [0xAA] 4 0xF0)) =
    some { writing [0xAA] 4 0xF0 with responses := [⟨.ok, some 1⟩] } := by decide

/-- V9 steps 3 to 6. -/
theorem test_wbegin : after (exec .wbegin (writing [0x7E] 4 0xF0)) =
    some { writing [0x7E] 4 0xF0 with responses := [⟨.ok, some 0⟩] } := by decide
theorem test_wend : after (exec .wend (writing [0x7E] 4 0xF0)) =
    some { writing [0x7E] 4 0xF0 with responses := [⟨.ok, some 1⟩] } := by decide
theorem test_wrdbyte : after (exec (.wrdbyte 0) (writing [0x7E] 4 0xF0)) =
    some { writing [0x7E] 4 0xF0 with responses := [⟨.ok, some 0x7E⟩] } := by decide
theorem test_wrdbyte_open_byte : after (exec (.wrdbyte 1) (writing [0x7E] 4 0xF0)) =
    some { writing [0x7E] 4 0xF0 with wErr := .eWidx, responses := [⟨.eWidx, none⟩] } := by decide

/-! ### Common checks, the host's transactions, the pins -/

/-- V12: a width fault wins over a local halt. -/
theorem test_width_before_local_halt : after (exec (.rread 0) { State.reset with rErr := .eOor }) =
    some { State.reset with rErr := .eOor, fatal := .eWidth, responses := [⟨.eWidth, none⟩] } := by decide

/-- V12: even the constructors are refused after a fatal fault. -/
theorem test_constructor_while_fatal : after (exec .wnew { State.reset with fatal := .eWidth }) =
    some { State.reset with fatal := .eWidth, responses := [⟨.eHalted, none⟩] } := by decide

/-- V12: the all-zero word through a step. -/
theorem test_step_illegal : after (step (State.withFetchWord State.reset 48 0)) =
    some { State.reset with fatal := .eIllegal, responses := [⟨.eIllegal, none⟩] } := by decide

/-- V13's word of RBIND 4 through a step from reset. -/
theorem test_step_rbind : after (step (State.withFetchWord State.reset 48 0x010000000004)) =
    some { State.reset with rLen := 4, responses := [⟨.ok, none⟩] } := by decide

/-- P6: the host writes source bytes, the second at a lower index. -/
theorem test_source_write : after (step (pending (.sourceWrite 1 0x6A) { State.reset with src := [(2, 0x80)] })) =
    some { State.reset with src := [(1, 0x6A), (2, 0x80)] } := by decide

/-- R110: reset clears the fatal fault and the writer, and leaves the source bytes. -/
theorem test_reset : after (step (pending .reset { writing [1] 3 0xE0 with fatal := .eWidth, src := [(0, 0xFF)] })) =
    some { State.reset with src := [(0, 0xFF)] } := by decide

/-- R52: data 0 with a fault. That the status stands in the upper four bits is the model's choice (log 22). -/
theorem test_pins : Response.pins ⟨.ok, some 0xA5C3⟩ = 0x00000A5C3 ∧ Response.pins ⟨.eOor, none⟩ = 0x300000000 := by
  decide

/-! ### Assembler: the table of R54 -/

/-- The command of a line. -/
def assembled (line : List Char) : Option Instr :=
  match assembleLine line with
  | .ok i => i
  | .error _ => none

theorem test_asm_wbits : assembled ['W', 'B', 'I', 'T', 'S', ' ', '4', ',', ' ', '0', 'b', '1', '0', '1', '1'] =
    some (.wbits 4 11) := by decide
theorem test_asm_wr16_comment : assembled ['W', 'R', '1', '6', ' ', '0', 'x', 'B', 'E', 'E', 'F', ' ', ';', 'x'] =
    some (.wr16 0xBEEF) := by decide
theorem test_asm_writes_hexadecimal_in_capitals : lineText ['W', 'R', '1', '6'] [(.hexadecimal, 0xBEEF)] =
    ['W', 'R', '1', '6', ' ', '0', 'x', 'B', 'E', 'E', 'F'] := by decide
theorem test_asm_writes_width_first : lineText (instrMnemonic (.wbits 4 11)) [(.decimal, 4), (.binary, 11)] =
    ['W', 'B', 'I', 'T', 'S', ' ', '4', ',', ' ', '0', 'b', '1', '0', '1', '1'] := by decide
theorem test_asm_rejects_bit_two : assembled ['W', 'B', 'I', 'T', ' ', '2'] = none := by decide

/-! ### Witnesses: the hypotheses of each statement met together -/

theorem witness_DecodeOfEncodeIsTheCommand : Instr.wf (.wbit 1) = true ∧ Instr.wf (.wbits 255 0xFFFFFFFF) = true := by
  decide

theorem witness_EncodeOfDecodeIsTheWord : decode 0x250000000001 = .ok (.wbit 1) := rfl

theorem witness_WordDecodesExactlyWhenOneRowMatches :
    (∃ r ∈ opcodeMap, (0x250000000001 : CmdWord) &&& r.format.mask = r.matchWord) ∧
    decode 0x250000000001 = .ok (.wbit 1) := ⟨by decide, rfl⟩

theorem witness_IllegalWordRaisesTheFatalFault :
    CmdWord.op 0 ∉ ([0x01, 0x02, 0x03, 0x10, 0x11, 0x12, 0x20, 0x21, 0x22, 0x23, 0x24, 0x25, 0x26, 0x27, 0x28, 0x29] :
      List Opcode) ∧
    (∃ r ∈ opcodeMap, CmdWord.op 0x250000000002 = r.op ∧ (0x250000000002 : CmdWord) &&& r.format.mask ≠ r.matchWord) ∧
    (pending (.command 0) State.reset).port = [.command 0] ∧ (pending (.command 0) State.reset).fatal = .none ∧
    rejected 0 ≠ none := by decide

theorem witness_StepRunsTheDecodedCommand :
    (pending (.command 0x110000000000) State.reset).port = [.command 0x110000000000] ∧
    decode 0x110000000000 = .ok .ralign := ⟨rfl, rfl⟩

theorem witness_EveryCommandWordIsAnsweredOnceAndPrecisely :
    (pending (.command 0x030000000000) State.reset).port = [.command 0x030000000000] := rfl

theorem witness_SuccessLeavesTheFaultRegisters :
    (∃ t, exec (.rbind 0) { State.reset with rErr := .eOor } = .next t ∧ t.responses = [] ++ [⟨.ok, none⟩]) ∧
    (∃ t, exec .wnew { State.reset with wErr := .eWidx } = .next t ∧ t.responses = [] ++ [⟨.ok, none⟩]) ∧
    ∃ t, exec .wcount { State.reset with rErr := .eOor } = .next t ∧ t.responses = [] ++ [⟨.ok, some 0⟩] :=
  ⟨⟨_, rfl, rfl⟩, ⟨_, rfl, rfl⟩, ⟨_, rfl, rfl⟩⟩

theorem witness_AnswerStatusFollowsTheFaultTable :
    (within 0 1 (writing [0xAA] 7 0)).wLen ≤ (within 0 1 (writing [0xAA] 7 0)).cfg.wcap ∧ rejected 0 ≠ none := by decide

theorem witness_HaltedUnitRefuses :
    ({ State.reset with fatal := .eWidth } : State).fatal ≠ .none ∧ (0 : CmdWord) ≠ 0x030000000000 ∧
    (Instr.wf (.rread 32) = true ∧ Instr.widthInvalid (.rread 32) = false ∧ Instr.isConstructor (.rread 32) = false ∧
      Instr.half (.rread 32) = .reader ∧ ({ State.reset with rErr := .eOor } : State).rErr ≠ .none) ∧
    (Instr.wf (.wbit 1) = true ∧ Instr.widthInvalid (.wbit 1) = false ∧ Instr.isConstructor (.wbit 1) = false ∧
      Instr.half (.wbit 1) = .writer ∧ ({ State.reset with wErr := .eWovf } : State).wErr ≠ .none) ∧
    Instr.isConstructor .wnew = true := by decide

theorem witness_RecordedFaultIsClearedOnlyByItsRecovery :
    (∃ t, step (pending .reset { State.reset with fatal := .eWidth }) = .next t ∧ t.fatal ≠ .eWidth) ∧
    (∃ t, step (pending (.command 0x010000000000) { State.reset with rErr := .eBind }) = .next t ∧ t.rErr = .none) ∧
    (∃ t, step (pending (.command 0x020000000000) { State.reset with wErr := .eWidx }) = .next t ∧ t.wErr = .none) ∧
    (BitVec.toNat (4 : Word) ≤ (within 4 0 State.reset).cfg.rcap ∧ (within 4 0 State.reset).fatal = .none) :=
  ⟨⟨_, rfl, by decide⟩, ⟨_, rfl, rfl⟩, ⟨_, rfl, rfl⟩, by decide⟩

theorem witness_InvalidWidthIsFatal :
    ¬ legalWidth 0 ∧ ¬ legalWidth 33 ∧ legalWidth 1 ∧ legalWidth 32 ∧ State.reset.fatal = .none ∧
    (Instr.widthInvalid (.rread 32) = false ∧ ∃ t, exec (.rread 32) State.reset = .next t) :=
  ⟨by decide, by decide, by decide, by decide, rfl, rfl, _, rfl⟩

theorem witness_CommandsLeaveTheOtherHalfAndSrcAlone :
    (∃ t, exec (.rread 3) (reading [0xA5] 0 0) = .next t ∧ Instr.half (.rread 3) ≠ .writer) ∧
    ∃ t, exec (.wr8 1) State.reset = .next t ∧ Instr.half (.wr8 1) ≠ .reader :=
  ⟨⟨_, rfl, by decide⟩, ⟨_, rfl, by decide⟩⟩

theorem witness_HalvesDoNotInfluenceEachOther :
    (Instr.half (.rread 3) = .reader ∧ ∃ t, exec (.rread 3) (reading [0xA5] 0 0) = .next t) ∧
    (Instr.half .wcount = .writer ∧ ∃ t, exec .wcount (writing [1] 0 0) = .next t) := ⟨⟨rfl, _, rfl⟩, rfl, _, rfl⟩

theorem witness_RreadDependsOnlyOnTheBytesOfItsBits :
    (∀ a < (reading [0xA5, 0xC3] 1 0).rLen, (reading [0xA5, 0xC3] 1 0).rByte ≤ a → 8 * a < (reading [0xA5, 0xC3] 1 0).rp + 8 →
      srcByte { reading [0xA5, 0xC3] 1 0 with src := [(1, 0xC3)], powerUp := 1 } a = srcByte (reading [0xA5, 0xC3] 1 0) a) ∧
    ∃ t, exec (.rread 8) (reading [0xA5, 0xC3] 1 0) = .next t := by
  refine ⟨fun a h h' _ => ?_, _, rfl⟩
  have ha : a = 1 := Nat.le_antisymm (Nat.le_of_lt_succ h) h'
  subst ha
  rfl

theorem witness_SnapshotOnlyGrowsWithinASession :
    ∃ t, runCommands [.wr8 0xD3, .wbits 7 0x55] State.reset = .next t ∧
      (∀ i ∈ [Instr.wr8 0xD3, .wbits 7 0x55], i ≠ .wnew) ∧ ∀ i ∈ [Instr.wr8 0xD3, .wbits 7 0x55], ∀ len, i ≠ .rbind len :=
  ⟨_, rfl, by simp, by simp⟩

theorem witness_ResetTransactionSetsEveryRegister :
    ∃ t, step (pending .reset { State.reset with fatal := .eIllegal }) = .next t ∧
      (pending .reset { State.reset with fatal := .eIllegal }).fatal ≠ .none ∧ t.fatal = .none :=
  ⟨_, rfl, by decide, rfl⟩

/-- Both capacities met exactly, an open byte, a cursor at the end. -/
theorem witness_StepKeepsWellFormed :
    State.WellFormed (within 1 1 { reading [0xA5] 1 0 with wbuf := [0xAA], wFill := 4, wAcc := 0xF0 }) ∧
    ∃ t, step (pending (.command 0x240000000000)
      (within 1 1 { reading [0xA5] 1 0 with wbuf := [0xAA], wFill := 4, wAcc := 0xF0 })) = .next t :=
  ⟨by decide, _, rfl⟩

theorem witness_ReaderInvariantHolds : (reading [0xA5, 0xC3] 1 7).ReaderInv ∧ (reading [0xA5, 0xC3] 2 0).ReaderInv ∧
    ∃ t, step (pending (.command 0x110000000000) (reading [0xA5, 0xC3] 1 7)) = .next t :=
  ⟨by decide, by decide, _, rfl⟩

theorem witness_OpenByteStaysZeroPadded : (writing [] 7 0xFE).WriterInv ∧ (writing [] 0 0).WriterInv ∧
    (∃ t, step (pending (.command 0x250000000001) (writing [] 7 0xFE)) = .next t) ∧
    ((writing [] 6 0xFC).fatal = .none ∧ (writing [] 6 0xFC).wErr = .none ∧ (writing [] 6 0xFC).WriterInv ∧
      (writing [] 6 0xFC).wLen ≤ (writing [] 6 0xFC).cfg.wcap ∧ BitVec.toNat (1 : Word) ≤ 1 ∧
      (writing [] 6 0xFC).wFill ≠ 7) := ⟨by decide, by decide, ⟨_, rfl⟩, by decide⟩

/-- `len = RCAP` binds and `len = RCAP + 1` does not. -/
theorem witness_RbindStartsAReaderSession :
    (within 4 0 { State.reset with rErr := .eOor }).fatal = .none ∧
    BitVec.toNat (4 : Word) ≤ (within 4 0 { State.reset with rErr := .eOor }).cfg.rcap ∧
    (within 4 0 { State.reset with rErr := .eOor }).cfg.rcap < BitVec.toNat (5 : Word) := by decide

/-- Exactly the bits that remain. -/
theorem witness_RreadReturnsTheNextField :
    (reading [0x12, 0x34, 0x56, 0x78, 0x9A] 1 0).fatal = .none ∧ (reading [0x12, 0x34, 0x56, 0x78, 0x9A] 1 0).rErr = .none ∧
    legalWidth 32 ∧ (reading [0x12, 0x34, 0x56, 0x78, 0x9A] 1 0).rp + BitVec.toNat (32 : Width) ≤
      8 * (reading [0x12, 0x34, 0x56, 0x78, 0x9A] 1 0).rLen := by decide

/-- One bit more than remains. -/
theorem witness_ReadPastTheEndConsumesNothing :
    (reading [0xA5, 0xC3] 1 4).fatal = .none ∧ (reading [0xA5, 0xC3] 1 4).rErr = .none ∧ legalWidth 5 ∧
    8 * (reading [0xA5, 0xC3] 1 4).rLen < (reading [0xA5, 0xC3] 1 4).rp + BitVec.toNat (5 : Width) := by decide

theorem witness_RalignMovesToTheBoundaryAtOrAfter : (reading [0xA5, 0xC3] 1 1).fatal = .none ∧
    (reading [0xA5, 0xC3] 1 1).rErr = .none ∧ (reading [0xA5, 0xC3] 1 1).ReaderInv := by decide

theorem witness_RatendTellsWhetherABitRemains :
    ((reading [0xA5, 0xC3] 2 0).fatal = .none ∧ (reading [0xA5, 0xC3] 2 0).rErr = .none ∧
      (reading [0xA5, 0xC3] 2 0).ReaderInv) ∧ (reading [0xA5, 0xC3] 1 7).ReaderInv := by decide

theorem witness_WnewStartsAWriterSession : ({ State.reset with wErr := .eWovf } : State).fatal = .none := rfl

/-- Each write command up to the capacity exactly, the open byte at fill count 7. -/
theorem witness_FieldWriteCompletesAsItsClosedForm :
    ((within 0 4 (writing [] 7 0xFE)).fatal = .none ∧ (within 0 4 (writing [] 7 0xFE)).wErr = .none ∧
      (within 0 4 (writing [] 7 0xFE)).WriterInv ∧ ((within 0 4 (writing [] 7 0xFE)).wp + 32) / 8 ≤ 4) ∧
    (Instr.wf (.wbits 32 5) = true ∧ Instr.widthInvalid (.wbits 32 5) = false ∧ Instr.writeWidth (.wbits 32 5) = some 32) ∧
    (Instr.wf (.wr8 5) = true ∧ Instr.widthInvalid (.wr8 5) = false ∧ Instr.writeWidth (.wr8 5) = some 8) ∧
    (Instr.wf (.wr16 5) = true ∧ Instr.widthInvalid (.wr16 5) = false ∧ Instr.writeWidth (.wr16 5) = some 16) ∧
    (Instr.wf (.wr32 5) = true ∧ Instr.widthInvalid (.wr32 5) = false ∧ Instr.writeWidth (.wr32 5) = some 32) ∧
    (Instr.wf (.wbit 1) = true ∧ Instr.widthInvalid (.wbit 1) = false ∧ Instr.writeWidth (.wbit 1) = some 1) := by decide

theorem witness_FixedWidthWritesAreFieldWrites : BitVec.toNat (1 : Word) ≤ 1 := by decide

theorem witness_FixedWidthWritesCommitBigEndianBytes :
    (within 0 4 State.reset).fatal = .none ∧ (within 0 4 State.reset).wErr = .none ∧ (within 0 4 State.reset).wFill = 0 ∧
    (within 0 4 State.reset).wAcc = 0x00 ∧ (within 0 4 State.reset).wLen + 1 ≤ 4 ∧ (within 0 4 State.reset).wLen + 2 ≤ 4 ∧
    (within 0 4 State.reset).wLen + 4 ≤ (within 0 4 State.reset).cfg.wcap := by decide

/-- One byte beyond the capacity. -/
theorem witness_WriteBeyondCapacityWritesNothing :
    (Instr.wf (.wbit 1) = true ∧ Instr.widthInvalid (.wbit 1) = false ∧ Instr.writeWidth (.wbit 1) = some 1 ∧
      (within 0 1 (writing [0xAA] 7 0xFE)).fatal = .none ∧ (within 0 1 (writing [0xAA] 7 0xFE)).wErr = .none ∧
      (within 0 1 (writing [0xAA] 7 0xFE)).cfg.wcap < ((within 0 1 (writing [0xAA] 7 0xFE)).wp + 1) / 8) ∧
    ((within 0 1 (writing [0xAA] 4 0xF0)).wFill ≠ 0 ∧
      (within 0 1 (writing [0xAA] 4 0xF0)).cfg.wcap < (within 0 1 (writing [0xAA] 4 0xF0)).wLen + 1) := by decide

theorem witness_WalignPadsTheOpenByte :
    ((within 0 2 (writing [0xAA] 7 0xFE)).fatal = .none ∧ (within 0 2 (writing [0xAA] 7 0xFE)).wErr = .none ∧
      (within 0 2 (writing [0xAA] 7 0xFE)).WriterInv ∧ (within 0 2 (writing [0xAA] 7 0xFE)).wLen + 1 ≤ 2) ∧
    ((within 0 1 (writing [0xAA] 0 0)).WriterInv ∧ (within 0 1 (writing [0xAA] 0 0)).wFill = 0) := by decide

theorem witness_CountAndReadOutChangeNothing : (writing [0x7E, 0x11] 4 0xF0).fatal = .none ∧
    (writing [0x7E, 0x11] 4 0xF0).wErr = .none ∧ (writing [0x7E, 0x11] 4 0xF0).wLen ≤ 2 ^ 32 - 1 ∧
    BitVec.toNat (1 : Word) < (writing [0x7E, 0x11] 4 0xF0).wLen := by decide

theorem witness_ReadOutOutsideTheSnapshotFaults : (writing [0x7E, 0x11] 4 0xF0).fatal = .none ∧
    (writing [0x7E, 0x11] 4 0xF0).wErr = .none ∧ (writing [0x7E, 0x11] 4 0xF0).wLen ≤ BitVec.toNat (2 : Word) := by decide

theorem witness_IterationYieldsTheSnapshot : (writing [0x7E] 4 0xF0).fatal = .none ∧
    (writing [0x7E] 4 0xF0).wErr = .none ∧ (writing [0x7E] 4 0xF0).wLen ≤ 2 ^ 32 - 1 := by decide

theorem witness_StatusReportsTheFaultRegisters :
    CmdWord.op 0x030000000001 = 0x03 ∧ (0x030000000001 : CmdWord) ≠ 0x030000000000 := by decide

theorem witness_AlignmentLaws :
    (∃ t, exec .ralign (reading [0xA5] 0 7) = .next t) ∧
    (∃ t, exec .walign (writing [] 7 0xFE) = .next t ∧ (writing [] 7 0xFE).WriterInv ∧
      t.responses = (writing [] 7 0xFE).responses ++ [⟨.ok, none⟩]) ∧ (writing [] 1 0x80).wFill ≠ 0 :=
  ⟨⟨_, rfl⟩, ⟨_, rfl, by decide, rfl⟩, by decide⟩

theorem witness_PositionLaw :
    (∃ t, exec (.rread 8) (reading [0xA5] 0 0) = .next t ∧ t.responses = [] ++ [⟨.ok, some 0xA5⟩]) ∧
    (∃ t, exec .walign (writing [] 7 0xFE) = .next t ∧ t.responses = [] ++ [⟨.ok, none⟩]) ∧
    (∃ t, exec .ralign (reading [0xA5] 0 7) = .next t ∧ t.responses = [] ++ [⟨.ok, none⟩]) ∧
    (∃ t, exec .wend (writing [] 7 0xFE) = .next t ∧ t.responses = [] ++ [⟨.ok, some 0⟩]) ∧
    ∃ t, runCommands [.wbits 7 0x55, .wbit 1, .wr16 0] State.reset = .next t ∧ State.reset.FreshWriter ∧
      t.fatal = .none ∧ t.wErr = .none :=
  ⟨⟨_, rfl, rfl⟩, ⟨_, rfl, rfl⟩, ⟨_, rfl, rfl⟩, ⟨_, rfl, rfl⟩, ⟨_, rfl, by decide, rfl, rfl⟩⟩

/-- V11's widths, at the capacity exactly. -/
theorem witness_ConcatenationProperty :
    (within 0 4 State.reset).fatal = .none ∧ (within 0 4 State.reset).FreshWriter ∧
    (∀ f ∈ ([(3, 6), (5, 0x13), (7, 0x55), (1, 0), (1, 1), (15, 0x1234)] : List (Width × Word)), legalWidth f.1) ∧
    totalBits [(3, 6), (5, 0x13), (7, 0x55), (1, 0), (1, 1), (15, 0x1234)] % 8 = 0 ∧
    totalBits [(3, 6), (5, 0x13), (7, 0x55), (1, 0), (1, 1), (15, 0x1234)] / 8 ≤ (within 0 4 State.reset).cfg.wcap :=
  ⟨rfl, by decide, by simp [legalWidth], by decide, by decide⟩

theorem witness_BitOrderProperty : (within 0 1 State.reset).fatal = .none ∧ (within 0 1 State.reset).FreshWriter ∧
    1 ≤ BitVec.toNat (8 : Width) ∧ BitVec.toNat (8 : Width) ≤ 8 ∧ 1 ≤ (within 0 1 State.reset).cfg.wcap := by decide

/-- P6's fields, at the capacity exactly; and a reader over the three bytes. -/
theorem witness_WriteThenReadRoundTrip :
    ((within 0 3 State.reset).fatal = .none ∧ (within 0 3 State.reset).FreshWriter ∧
      (∀ f ∈ ([(5, 0x16), (9, 0x1DA), (3, 5)] : List (Width × Word)), legalWidth f.1) ∧
      (totalBits [(5, 0x16), (9, 0x1DA), (3, 5)] + 7) / 8 ≤ (within 0 3 State.reset).cfg.wcap) ∧
    ((reading [0xB7, 0x6A, 0x80] 0 0).fatal = .none ∧ (reading [0xB7, 0x6A, 0x80] 0 0).BoundOver [0xB7, 0x6A, 0x80] ∧
      (reading [0xB7, 0x6A, 0x80] 0 0).AtStart) :=
  ⟨⟨rfl, by decide, by simp [legalWidth], by decide⟩, by decide⟩

/-- P2's bytes and split. -/
theorem witness_ReadThenWriteRoundTrip :
    ((reading [0x00, 0x05, 0x03, 0x01] 0 0).fatal = .none ∧
      (reading [0x00, 0x05, 0x03, 0x01] 0 0).BoundOver [0x00, 0x05, 0x03, 0x01] ∧
      (reading [0x00, 0x05, 0x03, 0x01] 0 0).AtStart ∧ (∀ n ∈ ([16, 11, 4, 1] : List Width), legalWidth n) ∧
      (([16, 11, 4, 1] : List Width).map BitVec.toNat).sum = 8 * ([0x00, 0x05, 0x03, 0x01] : List Byte).length) ∧
    ((within 0 4 State.reset).fatal = .none ∧ (within 0 4 State.reset).FreshWriter ∧
      ([0x00, 0x05, 0x03, 0x01] : List Byte).length ≤ (within 0 4 State.reset).cfg.wcap) := by decide

/-- Index R.LEN, the last index, one below R.LEN, and RCAP. -/
theorem witness_SourceWriteChangesOneByte :
    (pending (.sourceWrite 2 7) (within 4 0 (reading [1, 2] 0 0))).port = [.sourceWrite 2 7] ∧
    (within 4 0 (reading [1, 2] 0 0)).rLen ≤ 2 ∧ 3 < (within 4 0 (reading [1, 2] 0 0)).cfg.rcap ∧
    1 < (within 4 0 (reading [1, 2] 0 0)).rLen ∧ (within 4 0 (reading [1, 2] 0 0)).cfg.rcap ≤ 4 := by decide

/-- Each radix, at the largest width and value, with a comment; a document name with an operand that does not fit. -/
theorem witness_WrittenLinesAssembleToTheirCommands :
    (Instr.wf (.wbits 255 0xFFFFFFFF) = true ∧
      [(Radix.decimal, 255), (.hexadecimal, 0xFFFFFFFF)].map Prod.snd = instrOperands (.wbits 255 0xFFFFFFFF) ∧
      [' ', ';', 'x'].takeWhile (fun c => c != ';') = [' ']) ∧
    (Instr.wf (.wbit 1) = true ∧ [(Radix.binary, 1)].map Prod.snd = instrOperands (.wbit 1)) ∧
    (Instr.wf .wnew = true ∧ ([] : List (Radix × Nat)).map Prod.snd = instrOperands .wnew) ∧
    ['S', 'e', 't', 'N', 'e', 'x', 't', 'B', 'i', 't'] ∈ asmNames.map Prod.fst ∧
    assembleNamed ['S', 'e', 't', 'N', 'e', 'x', 't', 'B', 'i', 't'] [2] = .error .operandTooLarge :=
  ⟨by decide, by decide, by decide, by decide, rfl⟩

theorem witness_AssembledCommandsAreWellFormed : assembleLine ['W', 'B', 'I', 'T', ' ', '1'] = .ok (some (.wbit 1)) := rfl

end Sys2Proof.Tests
end

namespace Sys2Proof.Machine

/-! ### Invariants of the step -/

/-- An inductive invariant of the machine: one field for each way a step changes the state. -/
structure StepInvariant (P : State → Prop) : Prop where
  onRespond : ∀ r s, P s → P (respond r s)
  onRecord : ∀ f s, P s → P (record f s)
  onEffect : ∀ i s u r, Effect i s u r → P s → P u
  onTake : ∀ rest s, P s → P (takeTransaction rest s)
  onSourceWrite : ∀ a b s, a < s.cfg.rcap → P s → P { s with src := Memory.write s.src a b }
  onReset : ∀ s, P s → P (resetUnit s)

theorem StepInvariant.of_answers {P : State → Prop} (hP : StepInvariant P) {i : Instr} {s t : State}
    (h : Answers i s t) (hs : P s) : P t := by
  cases h with
  | refused => exact hP.onRespond _ _ hs
  | raised f => exact hP.onRespond _ _ (hP.onRecord f s hs)
  | completed u r _ he => exact hP.onRespond _ _ (hP.onEffect i s u r he hs)

theorem StepInvariant.of_step {P : State → Prop} (hP : StepInvariant P) {s t : State} (h : step s = .next t)
    (hs : P s) : P t := by
  have htaken rest : P (takeTransaction rest s) := hP.onTake rest s hs
  cases step_cases h with
  | idle => exact hs
  | command w rest i _ _ _ ha => exact hP.of_answers ha (htaken rest)
  | illegal w rest => exact hP.onRespond _ _ (hP.onRecord _ _ (htaken rest))
  | illegalHalted w rest => exact hP.onRespond _ _ (htaken rest)
  | sourceWrite a b rest _ _ hc => exact hP.onSourceWrite a b _ hc (htaken rest)
  | reset rest => exact hP.onReset _ (htaken rest)

/-- R13: only `Effect` moves the cursor or the bound, and reset sets all three registers to zero. -/
theorem readerInv_stepInvariant : StepInvariant State.ReaderInv where
  onRespond _ _ h := h
  onRecord _ _ h := by simpa [State.ReaderInv] using h
  onEffect _ _ _ _ he h := he.readerInv h
  onTake _ _ h := h
  onSourceWrite _ _ _ _ h := h
  onReset _ _ := by simp [State.ReaderInv]

/-- R17: only `Effect` touches the open byte, and reset empties it. -/
theorem writerInv_stepInvariant : StepInvariant State.WriterInv where
  onRespond _ _ h := h
  onRecord _ _ h := by simpa [State.WriterInv] using h
  onEffect _ _ _ _ he h := he.writerInv h
  onTake _ _ h := h
  onSourceWrite _ _ _ _ h := h
  onReset s _ := writerInv_zero (resetUnit s)

/-! ### One bit put into a byte that stays open -/

theorem putField_one (imm : Word) (s : State) : putField imm 1 s = putBit (valueBit imm 0) s := by
  simp [putField]

theorem valueBit_zero_of_le_one {imm : Word} (h : imm.toNat ≤ 1) : valueBit imm 0 = decide (imm = 1) := by
  obtain rfl | rfl : imm = 0 ∨ imm = 1 := by bv_omega
  · rfl
  · rfl

/-- The bit put in stands at `acc[7 - fill]`, the others stay (R71), counted from the low end. -/
theorem getLsbD_fillBit (acc : Byte) (fill k : Nat) (b : Bool) (hf : fill < 8) (hk : k < 8) :
    (fillBit acc fill b).getLsbD k =
      if k = 7 - fill then acc.getLsbD (7 - fill) || b else acc.getLsbD k := by
  have h := streamBit_fillBit acc fill (7 - k) b hf (by omega)
  have hkk : 7 - (7 - k) = k := by omega
  have hiff : 7 - k = fill ↔ k = 7 - fill := by omega
  simpa only [streamBit, hkk, hiff] using h

/-- Under the writer invariant the bit the next `PutBit` goes to is still zero (R17). -/
theorem getLsbD_fillBit_of_writerInv {s : State} (hi : s.WriterInv) (b : Bool) {k : Nat} (hk : k < 8) :
    (fillBit s.wAcc s.wFill.val b).getLsbD k = if k = 7 - s.wFill.val then b else s.wAcc.getLsbD k := by
  have hf := wFill_lt s
  rw [getLsbD_fillBit _ _ _ _ hf hk, hi (7 - s.wFill.val) (by omega), Bool.false_or]

/-- `WBIT` into a byte that stays open, past its checks (R71, R78). -/
theorem exec_wbit_open {imm : Word} {s : State} (h0 : s.fatal = .none) (he : s.wErr = .none)
    (hc : s.wLen ≤ s.cfg.wcap) (hb : imm.toNat ≤ 1) (hf : s.wFill ≠ 7) :
    exec (.wbit imm) s = .next (respond ⟨.ok, none⟩
      { s with wAcc := fillBit s.wAcc s.wFill.val (valueBit imm 0), wFill := s.wFill + 1 }) := by
  have hlegal : (Instr.wbit imm).wf = true := by simpa [Instr.wf, bitOperandLegal] using hb
  have hfits : (s.wp + 1) / 8 ≤ s.cfg.wcap := by
    have hlt := (s.wFill + 1).isLt
    rw [wFill_succ hf] at hlt
    unfold State.wp; omega
  rw [exec_write (.wbit imm) 1 s hlegal rfl rfl h0 he]
  obtain ⟨hover, _⟩ | ⟨_, t, ht, _, hw⟩ := writeField_cases 1 imm s
  · omega
  · rw [putField_one, putBit_open _ hf] at ht
    cases ht; exact hw

/-! ### The statements -/

/-- Settles O22: the reader invariant is inductive, and it is the bound `readerInv_iff` on the linear position. -/
theorem readerInvariantHolds : Obligations.ReaderInvariantHolds :=
  ⟨by decide, fun _ _ hs h => readerInv_stepInvariant.of_step h hs, readerInv_iff⟩

/-- Settles O23: the writer invariant is inductive, and one bit put into a byte that stays open goes to the top unfilled
bit, which the invariant says is zero. -/
theorem openByteStaysZeroPadded : Obligations.OpenByteStaysZeroPadded := by
  refine ⟨writerInv_zero State.reset, fun _ _ hs h => writerInv_stepInvariant.of_step h hs,
    fun _ => WriterInv.acc_zero, fun imm s h0 he hi hc hb hf => ?_⟩
  refine ⟨_, exec_wbit_open h0 he hc hb hf, rfl, wFill_succ hf, fun k hk => ?_⟩
  rw [respond_wAcc, getLsbD_fillBit_of_writerInv hi _ hk, valueBit_zero_of_le_one hb]

end Sys2Proof.Machine

namespace Sys2Proof

/-! ### Decoding by match and mask -/

/-- The row of an opcode is the only one (R46, R48). -/
theorem row_eq_of_op_eq {r q : Row} (hr : r ∈ opcodeMap) (hq : q ∈ opcodeMap) (h : r.op = q.op) : r = q :=
  Option.some.inj ((find_row hr h).symm.trans (find_row hq rfl))

/-- R46: a word decodes to what a row makes of its operand fields exactly when it has that row's match and mask. -/
theorem decode_ok_iff {w : CmdWord} {i : Instr} : decode w = .ok i ↔
    ∃ r ∈ opcodeMap, w &&& r.format.mask = r.matchWord ∧ i = r.build (CmdWord.n w) (CmdWord.imm w) := by
  constructor
  · intro h
    obtain ⟨r, hr, hop, hclear, hi⟩ := decode_ok h
    exact ⟨r, hr, (row_match w r).2 ⟨hop.symm, hclear⟩, hi⟩
  · rintro ⟨r, hr, hmatch, rfl⟩
    obtain ⟨hop, hclear⟩ := (row_match w r).1 hmatch
    rw [decode_of_row (find_row hr hop.symm), if_pos hclear]

/-- A word that decodes has an opcode of the map. -/
theorem op_mem_of_decode_ok {w : CmdWord} {i : Instr} (h : decode w = .ok i) :
    CmdWord.op w ∈ opcodeMap.map Row.op := by
  obtain ⟨r, hr, hop, _⟩ := decode_ok h
  exact hop ▸ List.mem_map_of_mem hr

/-- A word that decodes matches the row of its opcode. -/
theorem row_match_of_decode_ok {w : CmdWord} {i : Instr} {r : Row} (h : decode w = .ok i) (hr : r ∈ opcodeMap)
    (hop : CmdWord.op w = r.op) : w &&& r.format.mask = r.matchWord := by
  obtain ⟨q, hq, hmatch, _⟩ := decode_ok_iff.1 h
  obtain ⟨hqop, _⟩ := (row_match w q).1 hmatch
  rwa [row_eq_of_op_eq hr hq (hop.symm.trans hqop)]

end Sys2Proof

namespace Sys2Proof.Machine

/-! ### The fatal faults -/

theorem step_command {s : State} {w : CmdWord} {rest : List Transaction} (hp : s.port = .command w :: rest) :
    step s = execute w (takeTransaction rest s) := by
  simp only [step, hp, transact]

/-- A word that matches no row, in a unit that is not fatally halted (R50). -/
theorem execute_illegal_raises {w : CmdWord} {s : State} (hd : ∀ i, decode w ≠ .ok i) (h0 : s.fatal = .none) :
    execute w s = .next (raise .eIllegal s) :=
  (execute_illegal hd s).trans (unlessFatal_pass _ h0)

/-- R51: the width is looked at before the reader half's own halt. -/
theorem exec_rread_width_fault {n : Width} {s : State} (h0 : s.fatal = .none) (hn : ¬ legalWidth n) :
    exec (.rread n) s = .next (raise .eWidth s) :=
  (unlessFatal_pass _ h0).trans (whenWidth_stop _ _ hn)

/-- R51: the width is looked at before the writer half's own halt. -/
theorem exec_wbits_width_fault {n : Width} {s : State} (imm : Word) (h0 : s.fatal = .none) (hn : ¬ legalWidth n) :
    exec (.wbits n imm) s = .next (raise .eWidth s) :=
  (unlessFatal_pass _ h0).trans (whenWidth_stop _ _ hn)

/-- Only a width operand outside 1 to 32 raises `E_WIDTH` (R95). -/
theorem Faults.widthInvalid {i : Instr} {s : State} (h : Faults i s .eWidth) : i.widthInvalid = true := by
  cases i <;> simp only [Faults, reduceCtorEq, false_and, or_false, true_and] at h
  case rread n => exact congrArg not h
  case wbits n imm => exact congrArg not h

theorem FaultCode.eq_eWidth_of_status {f : FaultCode} (h : f.status = .eWidth) : f = .eWidth := by
  cases f <;> simp [FaultCode.status] at h ⊢

/-- A command is answered `E_WIDTH` only by raising it. -/
theorem Answers.faults_of_eWidth {i : Instr} {s t : State} (h : Answers i s t)
    (hr : t.responses = s.responses ++ [⟨.eWidth, none⟩]) : Faults i s .eWidth := by
  cases h with
  | refused => simp at hr
  | raised f _ hf =>
    have hstatus : f.status = .eWidth := by simpa using hr
    exact FaultCode.eq_eWidth_of_status hstatus ▸ hf
  | completed u r _ he => simp [he.frame.responses] at hr

/-! ### Names of the assembler -/

/-- All that assembling needs of a name is the shape its row holds. -/
theorem assembleNamed_eq_elim (name : List Char) (ops : List Nat) : assembleNamed name ops =
    ((asmNames.find? (fun e => e.1 == name)).map Prod.snd).elim (.error .unknownName) (assembleShape · ops) := by
  unfold assembleNamed
  cases asmNames.find? (fun e => e.1 == name) <;> rfl

/-- Two names that stand for one shape assemble alike. -/
theorem assembleNamed_congr {a b : List Char}
    (h : (asmNames.find? (fun e => e.1 == a)).map Prod.snd = (asmNames.find? (fun e => e.1 == b)).map Prod.snd)
    (ops : List Nat) : assembleNamed a ops = assembleNamed b ops := by
  rw [assembleNamed_eq_elim, assembleNamed_eq_elim, h]

/-! ### The statements on encoding -/

/-- Settles O4: the map's numbers are computed; the rest is `decode_ok_iff`, and that a matching row has the word's
opcode. -/
theorem wordDecodesExactlyWhenOneRowMatches : Obligations.WordDecodesExactlyWhenOneRowMatches := by
  refine ⟨by decide, fun w r hr h => decode_ok_iff.2 ⟨r, hr, h, rfl⟩, fun _ _ => decode_ok_iff.1,
    fun w r _ q _ h h' => ?_⟩
  obtain ⟨hr, _⟩ := (row_match w r).1 h
  obtain ⟨hq, _⟩ := (row_match w q).1 h'
  exact hr.symm.trans hq

/-- Settles O5: a word that decodes has an assigned opcode and matches its row; any other raises `E_ILLEGAL`. -/
theorem illegalWordRaisesTheFatalFault : Obligations.IllegalWordRaisesTheFatalFault :=
  ⟨fun _ hop _ h => hop (op_mem_of_decode_ok h),
    fun _ _ hr hop hne _ h => hne (row_match_of_decode_ok h hr hop),
    fun _ _ _ hp h0 hd => (step_command hp).trans (execute_illegal_raises hd h0)⟩

/-- Settles O13: the encoder gives the words, the width check comes before the halt of a half, and `E_WIDTH` is answered
only by raising it. -/
theorem invalidWidthIsFatal : Obligations.InvalidWidthIsFatal := by
  refine ⟨fun n imm => ⟨⟨_, Laws.RoundTrip.rread n rfl⟩, _, Laws.RoundTrip.wbits n imm rfl⟩,
    fun n imm s hn h0 => ⟨exec_rread_width_fault h0 hn, exec_wbits_width_fault imm h0 hn⟩, fun i s t hv h hr => ?_⟩
  have hinvalid : i.widthInvalid = true := ((exec_cases h).faults_of_eWidth hr).widthInvalid
  exact Bool.false_ne_true (hv.symm.trans hinvalid)

/-- Settles O48: nine names stand for the shape of their mnemonic; `WriteBits` and `RUNBIND` have shapes of their own,
which give the same command. -/
theorem documentNamesAssembleAsTheirCommands : Obligations.DocumentNamesAssembleAsTheirCommands := by
  refine ⟨fun ops => ⟨?_, ?_, ?_, ?_, ?_, ?_, ?_, ?_, ?_⟩, fun v n => rfl, rfl⟩ <;>
    exact assembleNamed_congr rfl ops

end Sys2Proof.Machine

namespace Sys2Proof.Machine

/-! ### The field `RREAD` returns, by its bits and by its bytes -/

/-- A string listed bit by bit writes the sum of its weighted bits (R35, R63). -/
theorem bitsValue_map_range (f : Nat → Bool) (n : Nat) :
    bitsValue ((List.range n).map f) = ∑ i ∈ Finset.range n, (f i).toNat * 2 ^ (n - 1 - i) := by
  induction n with
  | zero => rfl
  | succ n ih =>
    have hweight : ∀ i ∈ Finset.range n,
        2 * ((f i).toNat * 2 ^ (n - 1 - i)) = (f i).toNat * 2 ^ (n + 1 - 1 - i) := fun i hi => by
      have hi' := Finset.mem_range.1 hi
      rw [show n + 1 - 1 - i = n - 1 - i + 1 by omega, Nat.pow_succ]; ring
    rw [List.range_succ, List.map_append, List.map_singleton, bitsValue_append_one, ih, Finset.mul_sum,
      Finset.sum_congr rfl hweight, Finset.sum_range_succ]
    simp

/-- The `n` bits from position `k` of bytes listed by index, bit by bit (R33). -/
theorem bytesBits_map_range_slice (f : Nat → Byte) {m k n : Nat} (h : k + n ≤ 8 * m) :
    ((bytesBits ((List.range m).map f)).drop k).take n =
      (List.range n).map fun i => streamBit (f ((k + i) / 8)) ((k + i) % 8) := by
  apply List.ext_getElem
  · simp; omega
  · intro i hi _
    have hin : i < n := (List.length_take_le _ _).trans_lt' hi
    rw [List.getElem_take, List.getElem_drop, List.getElem_eq_iff, bytesBits_getElem _ _ (by simp; omega)]
    simp

/-- The next `n` bits of the bound buffer are the bits at positions `RP`, `RP + 1`, … (R25, R34). -/
theorem nextField_eq_map_range (s : State) {n : Nat} (h : s.rp + n ≤ 8 * s.rLen) :
    (s.rBits.drop s.rp).take n =
      (List.range n).map fun i => streamBit (srcByte s ((s.rp + i) / 8)) ((s.rp + i) % 8) :=
  bytesBits_map_range_slice (srcByte s) h

/-- The next `n` bits of the bound buffer lie in any bytes read from the one under the cursor on that hold them. -/
theorem nextField_eq_window_slice (s : State) {n m : Nat} (h : s.rp + n ≤ 8 * s.rLen) (hm : s.rp % 8 + n ≤ 8 * m) :
    (s.rBits.drop s.rp).take n =
      ((bytesBits ((List.range m).map fun j => srcByte s (s.rp / 8 + j))).drop (s.rp % 8)).take n := by
  rw [nextField_eq_map_range s h, bytesBits_map_range_slice _ hm]
  refine List.map_congr_left fun i _ => ?_
  have hbyte : s.rp / 8 + (s.rp % 8 + i) / 8 = (s.rp + i) / 8 := by omega
  have hbit : (s.rp % 8 + i) % 8 = (s.rp + i) % 8 := by omega
  rw [hbyte, hbit]

/-- R63, first form: the sum over `SrcBit`. -/
theorem nextBits_toNat_eq_sum_srcBit (s : State) {n : Nat} (hn : n ≤ 32) (h : s.rp + n ≤ 8 * s.rLen) :
    (nextBits s n).toNat = ∑ i ∈ Finset.range n, srcBit s (s.rp + i) * 2 ^ (n - 1 - i) := by
  simp only [nextBits_toNat s n hn, nextField_eq_map_range s h, bitsValue_map_range, srcBit_eq]

/-- R63, second form: the shifted and masked big-endian number of bytes that hold the field. -/
theorem nextBits_toNat_eq_window (s : State) {n m : Nat} (hn : n ≤ 32) (h : s.rp + n ≤ 8 * s.rLen)
    (hm : s.rp % 8 + n ≤ 8 * m) : (nextBits s n).toNat =
      bytesValue ((List.range m).map fun j => srcByte s (s.rp / 8 + j)) / 2 ^ (8 * m - s.rp % 8 - n) % 2 ^ n := by
  have hlen : (bytesBits ((List.range m).map fun j => srcByte s (s.rp / 8 + j))).length = 8 * m := by simp
  rw [nextBits_toNat s n hn, nextField_eq_window_slice s h hm, bitsValue_slice _ _ _ (hlen ▸ hm), hlen,
    bitsValue_bytesBits]

/-- Settles O25: the word is `nextBits`, in both forms of R63; a legal width touches one to five bytes, which hold the
field. -/
theorem rreadReturnsTheNextField : Obligations.RreadReturnsTheNextField := by
  intro n s h0 he hw hl
  obtain ⟨hpos, hle⟩ := hw
  have hholds : s.rp % 8 + n.toNat ≤ 8 * ((s.rp + n.toNat - 1) / 8 - s.rp / 8 + 1) := by omega
  exact ⟨nextBits s n.toNat, exec_rread_ok n s h0 he ⟨hpos, hle⟩ hl, nextBits_toNat_eq_sum_srcBit s hle hl,
    by omega, by omega, nextBits_toNat_eq_window s hle hl hholds⟩

end Sys2Proof.Machine

namespace Sys2Proof.Machine

/-! ### The closed form of a field write -/

/-- The first `k` bits of a byte write its high part. -/
theorem bitsValue_take_byteBits (b : Byte) {k : Nat} (hk : k ≤ 8) :
    bitsValue ((byteBits b).take k) = b.toNat / 2 ^ (8 - k) := by
  have hlt : b.toNat / 2 ^ (8 - k) < 2 ^ k :=
    Nat.div_lt_of_lt_mul (by rw [← Nat.pow_add, Nat.sub_add_cancel hk]; exact b.isLt)
  have h := bitsValue_slice (byteBits b) 0 k (by simpa using hk)
  rwa [List.drop_zero, bitsValue_byteBits, byteBits_length, Nat.sub_zero, Nat.mod_eq_of_lt hlt] at h

/-- The first `c` bytes of the `m`-bit number `x`, most significant first (the committed bytes of R73). -/
def leadingBytes (m x c : Nat) : List Byte := (List.range c).map fun j => BitVec.ofNat 8 (x / 2 ^ (m - 8 * (j + 1)))

@[simp] theorem leadingBytes_length (m x c : Nat) : (leadingBytes m x c).length = c := by simp [leadingBytes]

theorem leadingBytes_succ (m x c : Nat) :
    leadingBytes m x (c + 1) = leadingBytes m x c ++ [BitVec.ofNat 8 (x / 2 ^ (m - 8 * (c + 1)))] := by
  simp [leadingBytes, List.range_succ]

/-- The leading bytes of `x` form `x` without its bits below them. -/
theorem bytesValue_leadingBytes {m x c : Nat} (hx : x < 2 ^ m) (hc : 8 * c ≤ m) :
    bytesValue (leadingBytes m x c) = x / 2 ^ (m - 8 * c) := by
  induction c with
  | zero => exact (Nat.div_eq_of_lt hx).symm
  | succ c ih =>
    have hshift : x / 2 ^ (m - 8 * c) = x / 2 ^ (m - 8 * (c + 1)) / 256 := by
      rw [Nat.div_div_eq_div_mul, show m - 8 * c = m - 8 * (c + 1) + 8 by omega, Nat.pow_add]
    rw [leadingBytes_succ, bytesValue_append_one, ih (by omega), hshift, BitVec.toNat_ofNat]
    exact Nat.div_add_mod _ 256

/-- The open byte that holds the `r` low bits of `x`, zero-padded (R17, R73). -/
def trailingByte (x r : Nat) : Byte := BitVec.ofNat 8 (x % 2 ^ r * 2 ^ (8 - r))

theorem trailingByte_toNat (x : Nat) {r : Nat} (hr : r ≤ 8) : (trailingByte x r).toNat = x % 2 ^ r * 2 ^ (8 - r) := by
  have hlt : x % 2 ^ r * 2 ^ (8 - r) < 2 ^ r * 2 ^ (8 - r) :=
    Nat.mul_lt_mul_of_pos_right (Nat.mod_lt _ (Nat.two_pow_pos r)) (Nat.two_pow_pos _)
  rw [← Nat.pow_add, Nat.add_sub_cancel' hr] at hlt
  rw [trailingByte, BitVec.toNat_ofNat, Nat.mod_eq_of_lt hlt]

theorem bitsValue_take_trailingByte (x : Nat) {r : Nat} (hr : r ≤ 8) :
    bitsValue ((byteBits (trailingByte x r)).take r) = x % 2 ^ r := by
  rw [bitsValue_take_byteBits _ hr, trailingByte_toNat x hr, Nat.mul_div_cancel _ (Nat.two_pow_pos _)]

/-- The bits below the filled ones are zero (R17). -/
theorem trailingByte_getLsbD (x : Nat) {r i : Nat} (hi : i < 8 - r) : (trailingByte x r).getLsbD i = false := by
  rw [trailingByte, BitVec.getLsbD_ofNat, Nat.testBit_mul_two_pow, decide_eq_false (by omega : ¬ 8 - r ≤ i),
    Bool.false_and, Bool.and_false]

/-- A bit string is the whole bytes of the number it writes, then the bits left over (R35). -/
theorem bytesBits_leadingBytes_append_trailing (bs : List Bool) :
    bytesBits (leadingBytes bs.length (bitsValue bs) (bs.length / 8)) ++
      (byteBits (trailingByte (bitsValue bs) (bs.length % 8))).take (bs.length % 8) = bs := by
  have hr : bs.length % 8 ≤ 8 := (Nat.mod_lt _ (by decide)).le
  have hrest : bs.length - 8 * (bs.length / 8) = bs.length % 8 := by omega
  have hlen : ((byteBits (trailingByte (bitsValue bs) (bs.length % 8))).take (bs.length % 8)).length =
      bs.length % 8 := by simpa using hr
  apply bitsValue_inj
  · rw [List.length_append, hlen, bytesBits_length, leadingBytes_length]; omega
  · rw [bitsValue_append, hlen, bitsValue_bytesBits, bytesValue_leadingBytes (bitsValue_lt bs) (by omega), hrest,
      bitsValue_take_trailingByte _ hr, Nat.mul_comm]
    exact Nat.div_add_mod _ _

/-- The number `X` of R73: the filled bits of the open byte, then the `n` low bits of the value. -/
def fieldNumber (n : Nat) (v : Word) (s : State) : Nat :=
  s.wAcc.toNat / 2 ^ (8 - s.wFill.val) * 2 ^ n + lowBits n v

theorem fieldNumber_eq_bitsValue (n : Nat) (v : Word) (s : State) :
    fieldNumber n v s = bitsValue ((byteBits s.wAcc).take s.wFill.val ++ fieldBits n v) := by
  rw [bitsValue_append, bitsValue_take_byteBits _ (wFill_lt s).le, fieldBits_length, bitsValue_fieldBits, fieldNumber]

/-- The state after a field write by its closed form (R73), before the response. -/
def fieldWritten (n : Nat) (v : Word) (s : State) : State :=
  { s with
    wbuf := s.wbuf ++ leadingBytes (s.wFill.val + n) (fieldNumber n v s) ((s.wFill.val + n) / 8)
    wFill := Fin.ofNat 8 ((s.wFill.val + n) % 8)
    wAcc := trailingByte (fieldNumber n v s) ((s.wFill.val + n) % 8) }

theorem fieldWritten_wFill (n : Nat) (v : Word) (s : State) :
    (fieldWritten n v s).wFill.val = (s.wFill.val + n) % 8 := Nat.mod_mod _ _

theorem fieldWritten_writerInv (n : Nat) (v : Word) (s : State) : (fieldWritten n v s).WriterInv := fun _ hi =>
  trailingByte_getLsbD _ (fieldWritten_wFill n v s ▸ hi)

/-- The closed form appends the field's bits to `WBits` (R73). -/
theorem fieldWritten_wBits (n : Nat) (v : Word) (s : State) :
    (fieldWritten n v s).wBits = s.wBits ++ fieldBits n v := by
  have hlen : ((byteBits s.wAcc).take s.wFill.val ++ fieldBits n v).length = s.wFill.val + n := by simp
  have hbits := bytesBits_leadingBytes_append_trailing ((byteBits s.wAcc).take s.wFill.val ++ fieldBits n v)
  rw [hlen, ← fieldNumber_eq_bitsValue] at hbits
  rw [State.wBits, fieldWritten_wFill, State.wBits, List.append_assoc, ← hbits, ← List.append_assoc,
    ← bytesBits_append]
  rfl

/-- The loop of `WBITS` ends in the closed form: both append the same bits, and the bits determine the writer. -/
theorem putField_eq_fieldWritten {n : Nat} {v : Word} {s t : State} (hi : s.WriterInv)
    (ht : putField v n s = some t) (ha : Appends n s t) : t = fieldWritten n v s := by
  obtain ⟨hbits, hit⟩ := putField_wBits v n hi ht
  obtain ⟨hbuf, hfill, hacc⟩ :=
    writer_eq_of_wBits hit (fieldWritten_writerInv n v s) (hbits.trans (fieldWritten_wBits n v s).symm)
  rw [ha.frame, hbuf, hfill, hacc]
  rfl

/-- A field write that fits, past its common checks, ends in the closed form (R72, R73). -/
theorem writeField_fits {n : Nat} {v : Word} {s : State} (hi : s.WriterInv) (hc : (s.wp + n) / 8 ≤ s.cfg.wcap) :
    writeField n v s = .next (respond ⟨.ok, none⟩ (fieldWritten n v s)) := by
  obtain ⟨hover, _⟩ | ⟨_, t, ht, ha, hw⟩ := writeField_cases n v s
  · omega
  · rw [hw, putField_eq_fieldWritten hi ht ha]

/-- Settles O30: every write command is the field write of its width and value, and that ends in the closed form. -/
theorem fieldWriteCompletesAsItsClosedForm : Obligations.FieldWriteCompletesAsItsClosedForm := by
  intro i n s hwf hv hn h0 he hi hc
  exact ⟨_, (exec_write i n s hwf hv hn h0 he).trans (writeField_fits hi hc), rfl, fieldWritten_wBits n i.valueField s⟩

end Sys2Proof.Machine

namespace Sys2Proof.Machine

/-! ### The status word and the words of its opcode -/

/-- R23: the status word bit by bit, from the low end. Bits 31 to 12 lie beyond the four bits of `FATAL`, so they are
zero. -/
theorem statusWord_getLsbD (s : State) {i : Nat} (hi : i < 32) : (statusWord s).getLsbD i =
    if i < 4 then s.rErr.code.getLsbD i
    else if i - 4 < 4 then s.wErr.code.getLsbD (i - 4) else s.fatal.code.getLsbD (i - 8) := by
  have hsub : i - 4 - 4 = i - 8 := by omega
  simp only [statusWord, BitVec.getLsbD_setWidth, BitVec.getLsbD_append, hi, decide_true, Bool.true_and, hsub]

theorem statusWord_rErr (s : State) : (statusWord s).extractLsb' 0 4 = s.rErr.code := by
  refine BitVec.eq_of_getLsbD_eq fun i hi => ?_
  rw [BitVec.getLsbD_extractLsb', statusWord_getLsbD s (by omega)]
  simp [hi]

theorem statusWord_wErr (s : State) : (statusWord s).extractLsb' 4 4 = s.wErr.code := by
  refine BitVec.eq_of_getLsbD_eq fun i hi => ?_
  rw [BitVec.getLsbD_extractLsb', statusWord_getLsbD s (by omega)]
  simp [hi]

theorem statusWord_fatal (s : State) : (statusWord s).extractLsb' 8 4 = s.fatal.code := by
  refine BitVec.eq_of_getLsbD_eq fun i hi => ?_
  have hr : ¬ 8 + i < 4 := by omega
  have hw : ¬ 8 + i - 4 < 4 := by omega
  rw [BitVec.getLsbD_extractLsb', statusWord_getLsbD s (by omega), if_neg hr, if_neg hw]
  simp [hi]

theorem statusWord_rest (s : State) : (statusWord s).extractLsb' 12 20 = 0 := by
  refine BitVec.eq_of_getLsbD_eq fun i hi => ?_
  have hr : ¬ 12 + i < 4 := by omega
  have hw : ¬ 12 + i - 4 < 4 := by omega
  rw [BitVec.getLsbD_extractLsb', statusWord_getLsbD s (by omega), if_neg hr, if_neg hw,
    BitVec.getLsbD_of_ge _ _ (by omega : 4 ≤ 12 + i - 8)]
  simp

/-- A word that decodes runs its command (R99). -/
theorem execute_of_decode_ok {w : CmdWord} {i : Instr} (h : decode w = .ok i) (s : State) :
    execute w s = exec i s := by simp only [execute, h]

/-- The row of `STATUS` masks every bit of the word (R46), so one word of its opcode decodes. -/
theorem eq_of_decode_ok_of_status_op {w : CmdWord} {i : Instr} (hop : CmdWord.op w = 0x03) (h : decode w = .ok i) :
    w = 0x030000000000 := by
  have hmatch := row_match_of_decode_ok (r := ⟨0x03, .Z, fun _ _ => .status⟩) h (by simp [opcodeMap]) hop
  exact BitVec.and_allOnes.symm.trans hmatch

/-- A word that matches no row raises `E_ILLEGAL`, or is refused by a fatally halted unit (R50, R98). -/
theorem execute_illegal_eq_ite {w : CmdWord} (hd : ∀ i, decode w ≠ .ok i) (s : State) : execute w s =
    if s.fatal = .none then .next (raise .eIllegal s) else .next (respondHalted s) := execute_illegal hd s

/-- Settles O38: `STATUS` has no check before its body and answers `statusWord`, which holds the three codes; no other
word of its opcode decodes. -/
theorem statusReportsTheFaultRegisters : Obligations.StatusReportsTheFaultRegisters := by
  refine ⟨fun s => ⟨statusWord s, rfl, execute_of_decode_ok (Laws.RoundTrip.status rfl) s, ?_, ?_, ?_,
    statusWord_rest s⟩, fun w s hop hne => ?_⟩
  · rw [statusWord_rErr]; cases s.rErr <;> rfl
  · rw [statusWord_wErr]; cases s.wErr <;> rfl
  · rw [statusWord_fatal]; cases s.fatal <;> rfl
  · exact execute_illegal_eq_ite (fun i h => hne (eq_of_decode_ok_of_status_op hop h)) s

end Sys2Proof.Machine

namespace Sys2Proof

/-! ### What a decoded word says of its command -/

/-- A row whose must-be-zero bits are clear makes a well-formed command of its own opcode (R47, R48). -/
theorem row_build_wf_opcode {r : Row} (hr : r ∈ opcodeMap) {n : Width} {imm : Word}
    (hclear : r.format.mbzClear n imm = true) : (r.build n imm).wf = true ∧ (r.build n imm).opcode = r.op := by
  simp only [opcodeMap, List.mem_cons, List.not_mem_nil, or_false] at hr
  rcases hr with rfl | rfl | rfl | rfl | rfl | rfl | rfl | rfl | rfl | rfl | rfl | rfl | rfl | rfl | rfl | rfl
  -- Only the row of `WBIT` builds a command with bits of its own that must be zero.
  pick_goal 12
  · have hshift : imm >>> 1 = 0 := beq_iff_eq.1 (Bool.and_eq_true_iff.1 hclear).2
    exact ⟨decide_eq_true (shiftRight_one_eq_zero.1 hshift), rfl⟩
  all_goals exact ⟨rfl, rfl⟩

theorem wf_of_decode_ok {w : CmdWord} {i : Instr} (h : decode w = .ok i) : i.wf = true := by
  obtain ⟨r, hr, _, hclear, rfl⟩ := decode_ok h
  exact (row_build_wf_opcode hr hclear).1

theorem op_of_decode_ok {w : CmdWord} {i : Instr} (h : decode w = .ok i) : CmdWord.op w = i.opcode := by
  obtain ⟨r, hr, hop, hclear, rfl⟩ := decode_ok h
  exact hop.symm.trans (row_build_wf_opcode hr hclear).2.symm

end Sys2Proof

namespace Sys2Proof.Machine

/-! ### The checks of a command, from its properties -/

@[simp] theorem FatalErr.code_eq_zero_iff (e : FatalErr) : e.code = 0 ↔ e = .none := by cases e <;> decide

@[simp] theorem ReaderErr.code_eq_zero_iff (e : ReaderErr) : e.code = 0 ↔ e = .none := by cases e <;> decide

@[simp] theorem WriterErr.code_eq_zero_iff (e : WriterErr) : e.code = 0 ↔ e = .none := by cases e <;> decide

/-- Of the three answers of a command, a fatally halted unit gives only the refusal (R98). -/
theorem exec_fatally_halted {i : Instr} {s : State} (h0 : s.fatal ≠ .none) (hi : i ≠ .status) :
    exec i s = .next (respondHalted s) := by
  obtain ⟨t, ht, ha⟩ := exec_answers i s
  rw [ht]
  cases ha with
  | refused => rfl
  | raised f h => exact absurd h h0
  | completed u r h => exact absurd h (not_or.2 ⟨h0, hi⟩)

theorem not_legalWidth_of_widthInvalid {n : Width} (h : (!widthValid n) = true) : ¬ legalWidth n := fun hn => by
  rw [(widthValid_iff n).2 hn] at h
  cases h

/-- R99 step 3 comes before the halt of a half. -/
theorem exec_widthInvalid {i : Instr} {s : State} (h0 : s.fatal = .none) (hv : i.widthInvalid = true) :
    exec i s = .next (raise .eWidth s) := by
  cases i <;> simp only [Instr.widthInvalid, reduceCtorEq] at hv
  case rread n => exact exec_rread_width_fault h0 (not_legalWidth_of_widthInvalid hv)
  case wbits n imm => exact exec_wbits_width_fault imm h0 (not_legalWidth_of_widthInvalid hv)

/-- Past the fatal halt and the width, only the halt of its half is above a command of the reader (R99 step 4). -/
theorem exec_reader {i : Instr} {s : State} (h0 : s.fatal = .none) (hv : i.widthInvalid = false)
    (hc : i.isConstructor = false) (hh : i.half = .reader) :
    exec i s = unlessReaderHalted s (ownPseudocode i s) := by
  cases i <;> simp only [Instr.half, Instr.isConstructor, reduceCtorEq] at hh hc
  case rread n => exact (unlessFatal_pass _ h0).trans (whenWidth_pass _ _ (by simpa [Instr.widthInvalid] using hv))
  case ralign | ratend => exact unlessFatal_pass _ h0

/-- Past the fatal halt, the must-be-zero bits and the width, only the halt of its half is above a command of the writer
(R99 step 4). -/
theorem exec_writer {i : Instr} {s : State} (h0 : s.fatal = .none) (hw : i.wf = true) (hv : i.widthInvalid = false)
    (hc : i.isConstructor = false) (hh : i.half = .writer) :
    exec i s = unlessWriterHalted s (ownPseudocode i s) := by
  cases i <;> simp only [Instr.half, Instr.isConstructor, reduceCtorEq] at hh hc
  case wbits n imm =>
    exact (unlessFatal_pass _ h0).trans (whenWidth_pass _ _ (by simpa [Instr.widthInvalid] using hv))
  case wbit imm => exact (unlessFatal_pass _ h0).trans (whenLegal_pass _ _ hw)
  all_goals exact unlessFatal_pass _ h0

/-- The constructors and `STATUS` are under no halt of a half (R98, R99 step 4). -/
theorem exec_exempt {i : Instr} {s : State} (h0 : s.fatal = .none) (hi : i.isConstructor = true ∨ i = .status) :
    exec i s = ownPseudocode i s := by
  obtain hc | rfl := hi
  · cases i <;> simp only [Instr.isConstructor, reduceCtorEq] at hc
    case rbind | wnew => exact unlessFatal_pass _ h0
  · rfl

theorem eq_status_of_half_neither {i : Instr} (h : i.half = .neither) : i = .status := by
  cases i <;> simp [Instr.half] at h ⊢

/-- Steps 3 to 5 of R99 for a legal command word. -/
theorem exec_in_order {i : Instr} {s : State} (h0 : s.fatal = .none) (hw : i.wf = true) : exec i s =
    if i.widthInvalid then .next (raise .eWidth s)
    else if i.half = .reader ∧ i.isConstructor = false ∧ s.rErr.code ≠ 0 then .next (respondHalted s)
    else if i.half = .writer ∧ i.isConstructor = false ∧ s.wErr.code ≠ 0 then .next (respondHalted s)
    else ownPseudocode i s := by
  simp only [ne_eq, ReaderErr.code_eq_zero_iff, WriterErr.code_eq_zero_iff]
  split_ifs with hv hr hwr
  · exact exec_widthInvalid h0 hv
  · obtain ⟨hh, hc, he⟩ := hr
    exact (exec_reader h0 (Bool.eq_false_of_not_eq_true hv) hc hh).trans (unlessReaderHalted_stop _ he)
  · obtain ⟨hh, hc, he⟩ := hwr
    exact (exec_writer h0 hw (Bool.eq_false_of_not_eq_true hv) hc hh).trans (unlessWriterHalted_stop _ he)
  · cases hc : i.isConstructor with
    | true => exact exec_exempt h0 (.inl hc)
    | false =>
      cases hh : i.half with
      | neither => exact exec_exempt h0 (.inr (eq_status_of_half_neither hh))
      | reader =>
        have he : s.rErr = .none := by_contra fun he => hr ⟨hh, hc, he⟩
        exact (exec_reader h0 (Bool.eq_false_of_not_eq_true hv) hc hh).trans (unlessReaderHalted_pass _ he)
      | writer =>
        have he : s.wErr = .none := by_contra fun he => hwr ⟨hh, hc, he⟩
        exact (exec_writer h0 hw (Bool.eq_false_of_not_eq_true hv) hc hh).trans (unlessWriterHalted_pass _ he)

/-! ### A command word -/

/-- A fatally halted unit refuses every word, legal or not, but the one that decodes to `STATUS` (R98). -/
theorem execute_fatally_halted {w : CmdWord} {s : State} (h0 : s.fatal ≠ .none) (hw : w ≠ 0x030000000000) :
    execute w s = .next (respondHalted s) := by
  cases hd : decode w with
  | error e => exact (execute_illegal_eq_ite (by simp [hd]) s).trans (if_neg h0)
  | ok i =>
    have hi : i ≠ .status := by
      rintro rfl
      exact hw (eq_of_decode_ok_of_status_op (op_of_decode_ok hd) hd)
    exact (execute_of_decode_ok hd s).trans (exec_fatally_halted h0 hi)

/-! ### One precise response -/

/-- Between `s` and `t` the unit sent the one response `r`. It carries a result exactly when its status is `OK` and
`returns` holds; with any other status only the register the status names has changed (R52, R93, R100). -/
structure AnsweredBy (returns : Prop) (s t : State) (r : Response) : Prop where
  responses : t.responses = s.responses ++ [r]
  port : t.port = s.port
  result : r.result ≠ none ↔ r.status = .ok ∧ returns
  precise : r.status ≠ .ok → t = recordStatus r.status { s with responses := s.responses ++ [⟨r.status, none⟩] }

theorem AnsweredBy.halted (returns : Prop) (s : State) : AnsweredBy returns s (respondHalted s) ⟨.eHalted, none⟩ :=
  ⟨rfl, rfl, by simp, fun _ => rfl⟩

theorem AnsweredBy.raised (returns : Prop) (f : FaultCode) (s : State) :
    AnsweredBy returns s (raise f s) ⟨f.status, none⟩ :=
  ⟨by simp, by simp, by cases f <;> simp [FaultCode.status], fun _ => by cases f <;> rfl⟩

/-- A command that completes has a result exactly when it returns data (R52). -/
theorem Effect.result_ne_none_iff {i : Instr} {s u : State} {r : Option Word} (h : Effect i s u r) :
    r ≠ none ↔ i.returnsData = true := by
  cases i <;> simp only [Effect] at h
  case walign => obtain ⟨_, rfl, _⟩ := h; simp [Instr.returnsData]
  case wrdbyte => obtain ⟨_, _, b, _, rfl⟩ := h; simp [Instr.returnsData]
  case wnew | status => obtain ⟨_, rfl⟩ := h; simp [Instr.returnsData]
  case rread => obtain ⟨_, _, _, _, rfl⟩ := h; simp [Instr.returnsData]
  case wbits | wbit => obtain ⟨_, _, _, rfl⟩ := h; simp [Instr.returnsData]
  all_goals obtain ⟨_, _, rfl⟩ := h; simp [Instr.returnsData]

/-- Each of the three answers of a command is one precise response. -/
theorem Answers.answeredBy {i : Instr} {s t : State} (h : Answers i s t) :
    ∃ r, AnsweredBy (i.returnsData = true) s t r := by
  cases h with
  | refused => exact ⟨_, .halted _ s⟩
  | raised f => exact ⟨_, .raised _ f s⟩
  | completed u r _ he =>
    have hf := he.frame
    exact ⟨⟨.ok, r⟩, by rw [respond_responses, hf.responses], hf.port, by simpa using he.result_ne_none_iff,
      fun hne => absurd rfl hne⟩

theorem execute_answeredBy (w : CmdWord) (s : State) :
    ∃ t r, execute w s = .next t ∧ AnsweredBy (∃ i, decode w = .ok i ∧ i.returnsData = true) s t r := by
  cases hd : decode w with
  | ok i =>
    obtain ⟨t, ht, ha⟩ := exec_answers i s
    obtain ⟨r, hr⟩ := ha.answeredBy
    exact ⟨t, r, (execute_of_decode_ok hd s).trans ht, by simpa using hr⟩
  | error e =>
    rw [execute_illegal_eq_ite (by simp [hd])]
    split
    · exact ⟨_, _, rfl, .raised _ .eIllegal s⟩
    · exact ⟨_, _, rfl, .halted _ s⟩

/-! ### The statements on the exceptions -/

/-- Settles O7: a fatal halt leaves only `STATUS`, a word that matches no row is illegal, and steps 3 to 5 are
`exec_in_order`, since a word that decodes has no must-be-zero bit set. -/
theorem executeFollowsTheOrderOfTheChecks : Obligations.ExecuteFollowsTheOrderOfTheChecks := by
  intro w s
  unfold executeInOrder
  simp only [ne_eq, FatalErr.code_eq_zero_iff]
  split_ifs with h0 hw
  · cases hd : decode w with
    | error e => exact execute_illegal_raises (by simp [hd]) h0
    | ok i => exact (execute_of_decode_ok hd s).trans (exec_in_order h0 (wf_of_decode_ok hd))
  · exact hw ▸ execute_of_decode_ok (Laws.RoundTrip.status rfl) s
  · exact execute_fatally_halted h0 hw

/-- Settles O8: the step is `execute` on the state without the transaction, and that answers by one precise response. -/
theorem everyCommandWordIsAnsweredOnceAndPrecisely : Obligations.EveryCommandWordIsAnsweredOnceAndPrecisely := by
  intro s w rest hp
  obtain ⟨t, r, ht, hr⟩ := execute_answeredBy w (takeTransaction rest s)
  exact ⟨t, r, (step_command hp).trans ht, hr.responses, hr.port, hr.result, hr.precise⟩

/-- Settles O11: the refusals are the fatal halt of a word and the halt of the command's half; the exempt commands pass
both. -/
theorem haltedUnitRefuses : Obligations.HaltedUnitRefuses := by
  refine ⟨fun w s h0 hw => execute_fatally_halted h0 hw, fun i s h0 hw hv hc h => ?_, fun i s => exec_exempt⟩
  obtain ⟨hh, he⟩ | ⟨hh, he⟩ := h
  · exact (exec_reader h0 hv hc hh).trans (unlessReaderHalted_stop _ he)
  · exact (exec_writer h0 hw hv hc hh).trans (unlessWriterHalted_stop _ he)

end Sys2Proof.Machine

namespace Sys2Proof.Machine

/-! ### Bit strings of lists of fields -/

@[simp] theorem totalBits_cons (f : Width × Word) (fs : List (Width × Word)) :
    totalBits (f :: fs) = f.1.toNat + totalBits fs := by simp [totalBits]

@[simp] theorem fieldsBits_cons (f : Width × Word) (fs : List (Width × Word)) :
    fieldsBits (f :: fs) = fieldBits f.1.toNat f.2 ++ fieldsBits fs := by simp [fieldsBits]

@[simp] theorem fieldsBits_length (fs : List (Width × Word)) : (fieldsBits fs).length = totalBits fs := by
  induction fs with
  | nil => rfl
  | cons f fs ih => rw [fieldsBits_cons, List.length_append, fieldBits_length, ih, totalBits_cons]

theorem totalBits_zip {ws : List Width} {ds : List Word} (h : ds.length = ws.length) :
    totalBits (ws.zip ds) = (ws.map BitVec.toNat).sum := by
  have hfst : (ws.zip ds).map Prod.fst = ws := List.map_fst_zip h.ge
  calc totalBits (ws.zip ds) = (((ws.zip ds).map Prod.fst).map BitVec.toNat).sum := by
        rw [List.map_map]; rfl
    _ = (ws.map BitVec.toNat).sum := by rw [hfst]

/-- A bit string is cut into bytes in one way (R25). -/
theorem bytesBits_inj {as bs : List Byte} (h : bytesBits as = bytesBits bs) : as = bs := by
  induction as generalizing bs with
  | nil => exact (List.length_eq_zero_iff.1 (by simpa using congrArg List.length h.symm)).symm
  | cons a as ih =>
    cases bs with
    | nil => simpa using congrArg List.length h
    | cons b bs =>
      obtain ⟨hhead, htail⟩ := List.append_inj h rfl
      have hval : a.toNat = b.toNat := by rw [← bitsValue_byteBits, hhead, bitsValue_byteBits]
      rw [BitVec.eq_of_toNat_eq hval, ih htail]

/-- The field `RREAD` returns holds the bits it was read from (R35, R62). -/
theorem fieldBits_nextBits {s : State} {n : Nat} (hn : n ≤ 32) (h : s.rp + n ≤ 8 * s.rLen) :
    fieldBits n (nextBits s n) = (s.rBits.drop s.rp).take n := by
  have hlen : ((s.rBits.drop s.rp).take n).length = n := by simp; omega
  have hlt := bitsValue_lt ((s.rBits.drop s.rp).take n)
  rw [hlen] at hlt
  apply bitsValue_inj
  · rw [fieldBits_length, hlen]
  · rw [bitsValue_fieldBits, lowBits, nextBits_toNat s n hn, Nat.mod_eq_of_lt hlt]

/-! ### Lists of field writes and field reads -/

theorem fieldWritten_wp (n : Nat) (v : Word) (s : State) : (fieldWritten n v s).wp = s.wp + n := by
  rw [← wBits_length, fieldWritten_wBits, List.length_append, wBits_length, fieldBits_length]

/-- `WBITS` within capacity ends in the closed form of R73. -/
theorem exec_wbits_ok {n : Width} {v : Word} {s : State} (h0 : s.fatal = .none) (he : s.wErr = .none)
    (hi : s.WriterInv) (hw : legalWidth n) (hc : (s.wp + n.toNat) / 8 ≤ s.cfg.wcap) :
    exec (.wbits n v) s = .next (respond ⟨.ok, none⟩ (fieldWritten n.toNat v s)) :=
  (exec_write (.wbits n v) n.toNat s rfl (by simpa [Instr.widthInvalid] using hw) rfl h0 he).trans
    (writeField_fits hi hc)

/-- Field writes within capacity complete, and append the bits of their fields to `WBits` (R73). -/
theorem runCommands_writeFields {fs : List (Width × Word)} {s : State} (h0 : s.fatal = .none) (he : s.wErr = .none)
    (hi : s.WriterInv) (hw : ∀ f ∈ fs, legalWidth f.1) (hc : (s.wp + totalBits fs) / 8 ≤ s.cfg.wcap) :
    ∃ t, runCommands (writeFields fs) s = .next t ∧ t.fatal = .none ∧ t.wErr = .none ∧
      t.wBits = s.wBits ++ fieldsBits fs := by
  induction fs generalizing s with
  | nil => exact ⟨s, rfl, h0, he, (List.append_nil _).symm⟩
  | cons f fs ih =>
    obtain ⟨n, v⟩ := f
    obtain ⟨hn, hfs⟩ := List.forall_mem_cons.1 hw
    rw [totalBits_cons] at hc
    obtain ⟨t, ht, ht0, hte, htb⟩ := ih (s := respond ⟨.ok, none⟩ (fieldWritten n.toNat v s)) h0 he
      (fieldWritten_writerInv n.toNat v s) hfs (by rw [respond_wp, fieldWritten_wp, Nat.add_assoc]; exact hc)
    refine ⟨t, (runCommands_cons (exec_wbits_ok h0 he hi hn (by omega))).2 ht, ht0, hte, ?_⟩
    rw [htb, respond_wBits, fieldWritten_wBits, fieldsBits_cons, List.append_assoc]

/-- Field reads within the bound buffer complete, and the values they return hold, field by field, the bits from the
cursor on (R62). -/
theorem runCommands_readFields {ws : List Width} {q : State} (h0 : q.fatal = .none) (he : q.rErr = .none)
    (hw : ∀ n ∈ ws, legalWidth n) (hl : q.rp + (ws.map BitVec.toNat).sum ≤ 8 * q.rLen) :
    ∃ u ds, runCommands (readFields ws) q = .next u ∧ ds.length = ws.length ∧
      u.responses = q.responses ++ ds.map (fun d => ⟨.ok, some d⟩) ∧
      fieldsBits (ws.zip ds) = (q.rBits.drop q.rp).take (ws.map BitVec.toNat).sum := by
  induction ws generalizing q with
  | nil => exact ⟨q, [], rfl, rfl, (List.append_nil _).symm, rfl⟩
  | cons n ws ih =>
    obtain ⟨hn, hws⟩ := List.forall_mem_cons.1 hw
    rw [List.map_cons, List.sum_cons] at hl ⊢
    have hfits : q.rp + n.toNat ≤ 8 * q.rLen := by omega
    obtain ⟨u, ds, hu, hlen, hres, hbits⟩ :=
      ih (q := respond ⟨.ok, some (nextBits q n.toNat)⟩ (q.seekR (q.rp + n.toNat))) h0 he hws
        (by rw [respond_rp, seekR_rp, Nat.add_assoc]; exact hl)
    refine ⟨u, nextBits q n.toNat :: ds, (runCommands_cons (exec_rread_ok n q h0 he hn hfits)).2 hu,
      congrArg Nat.succ hlen, ?_, ?_⟩
    · rw [hres, List.map_cons, respond_responses, seekR_responses, List.append_assoc]; rfl
    · rw [List.zip_cons_cons, fieldsBits_cons, fieldBits_nextBits hn.2 hfits, hbits, respond_rBits, respond_rp,
        seekR_rBits, seekR_rp, List.take_add, List.drop_drop]

/-! ### The writer on a byte boundary -/

theorem State.FreshWriter.writerInv {s : State} (h : s.FreshWriter) : s.WriterInv := by
  obtain ⟨_, _, hacc, _⟩ := h
  intro i _
  simp [hacc]

theorem State.FreshWriter.wBits {s : State} (h : s.FreshWriter) : s.wBits = [] := by
  obtain ⟨hlen, hfill, _, _⟩ := h
  exact List.length_eq_zero_iff.1 (by rw [wBits_length, State.wp, hlen, hfill]; rfl)

/-- On a byte boundary `WBits` is the bits of the committed bytes (R26). -/
theorem wBits_of_wFill_zero {s : State} (h : s.wFill = 0) : s.wBits = bytesBits (snapshot s) := by
  rw [State.wBits, h]
  exact List.append_nil _

theorem exec_wcount_ok {s : State} (h0 : s.fatal = .none) (he : s.wErr = .none) :
    exec .wcount s = .next (respond ⟨.ok, some (countWord s.wLen)⟩ s) :=
  (unlessFatal_pass _ h0).trans (unlessWriterHalted_pass _ he)

/-! ### The statements on packing and copying -/

/-- Settles O41: the writes leave `WBits` the bits of the fields, and its length is `WP`, which gives `W.FILL` and
`W.LEN`. -/
theorem concatenationProperty : Obligations.ConcatenationProperty := by
  intro fs s h0 hfresh hw hsum hcap
  have ⟨_, _, _, he⟩ := hfresh
  have hwp : s.wp = 0 := by rw [← wBits_length, hfresh.wBits]; rfl
  obtain ⟨t, ht, ht0, hte, hbits⟩ :=
    runCommands_writeFields h0 he hfresh.writerInv hw (by rw [hwp, Nat.zero_add]; exact hcap)
  rw [hfresh.wBits, List.nil_append] at hbits
  have htp : t.wp = totalBits fs := by rw [← wBits_length, hbits, fieldsBits_length]
  have hfill : t.wFill = 0 := Fin.ext (by rw [wFill_eq, htp, hsum]; rfl)
  have hlen : t.wLen = totalBits fs / 8 := by rw [wLen_eq, htp]
  exact ⟨t, ht, ht0, hte, hfill, (wBits_of_wFill_zero hfill).symm.trans hbits, hlen, hlen ▸ exec_wcount_ok ht0 hte⟩

/-- Settles O44: the values read hold the bits of the bytes, by the concatenation property (O41) the writes leave a
snapshot with those bits, and these are the bits of no other bytes. -/
theorem readThenWriteRoundTrip : Obligations.ReadThenWriteRoundTrip := by
  intro bytes ws q h0 ⟨hbound, he⟩ ⟨hbyte, hbit⟩ hw hsum
  have hrp : q.rp = 0 := by rw [State.rp, hbyte, hbit]; rfl
  have hrBits : q.rBits = bytesBits bytes := congrArg bytesBits hbound
  have hbits8 : 8 * q.rLen = 8 * bytes.length := by rw [← rBits_length, hrBits, bytesBits_length]
  obtain ⟨u, ds, hu, hlen, hres, hread⟩ :=
    runCommands_readFields h0 he hw (by rw [hrp, hsum, hbits8, Nat.zero_add])
  rw [hrp, hsum, hrBits, List.drop_zero, List.take_of_length_le (bytesBits_length bytes).le] at hread
  refine ⟨u, ds, hu, hlen, hres, fun s hs0 hfresh hcap => ?_⟩
  have htotal : totalBits (ws.zip ds) = 8 * bytes.length := (totalBits_zip hlen).trans hsum
  obtain ⟨t, ht, ht0, hte, hfill, hsnap, _, _⟩ := concatenationProperty (ws.zip ds) s hs0 hfresh
    (fun f hf => hw f.1 (List.of_mem_zip hf).1) (by omega) (by omega)
  exact ⟨t, ht, ht0, hte, hfill, bytesBits_inj (hsnap.trans hread)⟩

end Sys2Proof.Machine

namespace Sys2Proof

/-! ### The word of a command -/

/-- A row whose must-be-zero bits are clear loses no bit of the operand fields: the command it builds has them again
(R46, R49). -/
theorem row_build_fields {r : Row} (hr : r ∈ opcodeMap) {n : Width} {imm : Word}
    (hclear : r.format.mbzClear n imm = true) :
    (r.build n imm).widthField = n ∧ (r.build n imm).valueField = imm := by
  simp only [opcodeMap, List.mem_cons, List.not_mem_nil, or_false] at hr
  rcases hr with rfl | rfl | rfl | rfl | rfl | rfl | rfl | rfl | rfl | rfl | rfl | rfl | rfl | rfl | rfl | rfl <;>
    simp_all [Format.mbzClear, Instr.widthField, Instr.valueField]

/-- A word that decodes is the word of its command (R47). -/
theorem encode_of_decode_ok {w : CmdWord} {i : Instr} (h : decode w = .ok i) : encode i = w := by
  have hop := op_of_decode_ok h
  obtain ⟨r, hr, _, hclear, rfl⟩ := decode_ok h
  obtain ⟨hn, himm⟩ := row_build_fields hr hclear
  rw [encode, ← hop, hn, himm, ofFields_fields]

/-- Decoding the word of a well-formed command gives the command back, command by command. -/
theorem decode_encode {i : Instr} (hw : i.wf = true) : decode (encode i) = .ok i := by
  cases i with
  | rbind len => exact Laws.RoundTrip.rbind len hw
  | wnew => exact Laws.RoundTrip.wnew hw
  | status => exact Laws.RoundTrip.status hw
  | rread n => exact Laws.RoundTrip.rread n hw
  | ralign => exact Laws.RoundTrip.ralign hw
  | ratend => exact Laws.RoundTrip.ratend hw
  | wbits n imm => exact Laws.RoundTrip.wbits n imm hw
  | wr8 imm => exact Laws.RoundTrip.wr8 imm hw
  | wr16 imm => exact Laws.RoundTrip.wr16 imm hw
  | wr32 imm => exact Laws.RoundTrip.wr32 imm hw
  | walign => exact Laws.RoundTrip.walign hw
  | wbit imm => exact Laws.RoundTrip.wbit imm hw
  | wcount => exact Laws.RoundTrip.wcount hw
  | wbegin => exact Laws.RoundTrip.wbegin hw
  | wend => exact Laws.RoundTrip.wend hw
  | wrdbyte idx => exact Laws.RoundTrip.wrdbyte idx hw

/-- Settles O2: `decode_encode`. -/
theorem decodeOfEncodeIsTheCommand : Obligations.DecodeOfEncodeIsTheCommand := fun _ => decode_encode

/-- Settles O3: a row whose must-be-zero bits are clear keeps every bit of the word in its command. -/
theorem encodeOfDecodeIsTheWord : Obligations.EncodeOfDecodeIsTheWord :=
  fun _ _ h => ⟨wf_of_decode_ok h, encode_of_decode_ok h⟩

/-- Settles O1: the sixteen words are looked up in the opcode map. -/
theorem specWordsDecodeToTheirCommands : Obligations.SpecWordsDecodeToTheirCommands := by
  refine ⟨?_, ?_, ?_, ?_, ?_, ?_, ?_, ?_, ?_, ?_, ?_, ?_, ?_, ?_, ?_, ?_⟩ <;> rfl

end Sys2Proof

namespace Sys2Proof.Machine

/-! ### What the assembler makes of numbers -/

theorem asmWidth_toNat (n : Width) : asmWidth n.toNat = .ok n := by
  have h : n.toNat ≤ 255 := Nat.le_of_lt_succ n.isLt
  simp [asmWidth, h]

theorem asmValue_toNat (v : Word) : asmValue v.toNat = .ok v := by
  have h : v.toNat ≤ 0xFFFFFFFF := Nat.le_of_lt_succ v.isLt
  simp [asmValue, h]

theorem asmBit_toNat {v : Word} (h : v.toNat ≤ 1) : asmBit v.toNat = .ok v := by
  simp [asmBit, h]

theorem asmWidth_map (f : Width → Instr) (n : Nat) : (asmWidth n).map f =
    if n ≤ 255 then .ok (f (BitVec.ofNat 8 n)) else .error .operandTooLarge := by
  unfold asmWidth; split <;> rfl

theorem asmValue_map (f : Word → Instr) (v : Nat) : (asmValue v).map f =
    if v ≤ 0xFFFFFFFF then .ok (f (BitVec.ofNat 32 v)) else .error .operandTooLarge := by
  unfold asmValue; split <;> rfl

theorem asmBit_map (f : Word → Instr) (b : Nat) : (asmBit b).map f =
    if b ≤ 1 then .ok (f (BitVec.ofNat 32 b)) else .error .operandTooLarge := by
  unfold asmBit; split <;> rfl

theorem asmWidth_bind_asmValue_map (f : Width → Word → Instr) (n v : Nat) :
    ((asmWidth n).bind fun n => (asmValue v).map (f n)) =
      if n ≤ 255 ∧ v ≤ 0xFFFFFFFF then .ok (f (BitVec.ofNat 8 n) (BitVec.ofNat 32 v)) else .error .operandTooLarge := by
  by_cases hn : n ≤ 255
  · simp only [asmWidth, hn, if_true, true_and]
    exact asmValue_map _ v
  · simp only [asmWidth, hn, if_false, false_and]
    rfl

/-! ### Every name makes well-formed commands -/

/-- Every command a shape makes of operands that fit is well-formed. -/
def AsmShape.MakesWellFormed : AsmShape → Prop
  | .z i => i.wf = true
  | .n f => ∀ n, (f n).wf = true
  | .nImm f | .immN f => ∀ n v, (f n v).wf = true
  | .imm f => ∀ v, (f v).wf = true
  | .bit f => ∀ v : Word, v.toNat ≤ 1 → (f v).wf = true

theorem asmNames_makeWellFormed : ∀ e ∈ asmNames, e.2.MakesWellFormed := by
  simp [asmNames, AsmShape.MakesWellFormed, Instr.wf]

/-- What a shape accepts, it makes a well-formed command of. -/
theorem AsmShape.MakesWellFormed.assembled {sh : AsmShape} (h : sh.MakesWellFormed) {ops : List Nat} {i : Instr}
    (ha : assembleShape sh ops = .ok i) : i.wf = true := by
  unfold assembleShape at ha
  split at ha
  · cases ha; exact h
  · rw [asmWidth_map] at ha
    split at ha <;> cases ha
    exact h _
  · rw [asmWidth_bind_asmValue_map] at ha
    split at ha <;> cases ha
    exact h _ _
  · rw [asmWidth_bind_asmValue_map] at ha
    split at ha <;> cases ha
    exact h _ _
  · rw [asmValue_map] at ha
    split at ha <;> cases ha
    exact h _
  · rw [asmBit_map] at ha
    split at ha <;> cases ha
    rename_i hb
    exact h _ ((Nat.mod_le _ _).trans hb)
  all_goals cases ha

theorem wf_of_assembleNamed_ok {name : List Char} {ops : List Nat} {i : Instr}
    (h : assembleNamed name ops = .ok i) : i.wf = true := by
  unfold assembleNamed at h
  split at h
  · cases h
  · exact (asmNames_makeWellFormed _ (List.mem_of_find?_eq_some ‹_›)).assembled h

/-- A line that assembles holds a name with its operands (R54). -/
theorem assembleNamed_of_assembleLine_ok {line : List Char} {i : Instr} (h : assembleLine line = .ok (some i)) :
    ∃ name ops, assembleNamed name ops = .ok i := by
  unfold assembleLine at h
  extract_lets text name at h
  split at h
  · cases h
  · split at h
    · rename_i ops _
      cases hn : assembleNamed name ops with
      | ok j => rw [hn] at h; cases h; exact ⟨name, ops, hn⟩
      | error e => rw [hn] at h; cases h
    · cases h

/-- Settles O46: every name makes well-formed commands, and those decode back. -/
theorem assembledCommandsAreWellFormed : Obligations.AssembledCommandsAreWellFormed := by
  intro line i h
  obtain ⟨name, ops, hn⟩ := assembleNamed_of_assembleLine_ok h
  have hw := wf_of_assembleNamed_ok hn
  exact ⟨hw, decode_encode hw⟩

/-- Settles O47: each mnemonic's row gives its shape, and the shape checks each operand against its field. -/
theorem operandsThatDoNotFitAreRejected : Obligations.OperandsThatDoNotFitAreRejected := fun n v =>
  ⟨asmWidth_map .rread n, asmWidth_bind_asmValue_map .wbits n v, asmValue_map .rbind v, asmValue_map .wr8 v,
    asmValue_map .wr16 v, asmValue_map .wr32 v, asmValue_map .wrdbyte v, asmBit_map .wbit v⟩

/-! ### Written lines -/

/-- The names of the assembler can stand in a line as they are. -/
theorem asmNames_plain : ∀ name ∈ asmNames.map Prod.fst, name ≠ [] ∧ ∀ c ∈ name, plainChar c = true := by
  have h : (asmNames.map Prod.fst).all (fun name => !name.isEmpty && name.all plainChar) = true := rfl
  simpa only [List.all_eq_true, Bool.and_eq_true, Bool.not_eq_true', List.isEmpty_eq_false_iff] using h

theorem instrMnemonic_mem (i : Instr) : instrMnemonic i ∈ asmNames.map Prod.fst := by
  cases i <;> simp [instrMnemonic, asmNames]

/-- The mnemonic and the operands of a well-formed command name that command (R54). -/
theorem assembleNamed_instr {i : Instr} (hw : i.wf = true) :
    assembleNamed (instrMnemonic i) (instrOperands i) = .ok i := by
  cases i with
  | rread n => exact congrArg (Except.map _) (asmWidth_toNat n)
  | wbits n imm =>
    change ((asmWidth n.toNat).bind fun n => (asmValue imm.toNat).map (Instr.wbits n)) = _
    rw [asmWidth_toNat, asmValue_toNat]; rfl
  | wbit imm => exact congrArg (Except.map _) (asmBit_toNat (of_decide_eq_true hw))
  | rbind imm | wr8 imm | wr16 imm | wr32 imm | wrdbyte imm => exact congrArg (Except.map _) (asmValue_toNat imm)
  | wnew | status | ralign | ratend | walign | wcount | wbegin | wend => rfl

/-- A line of any name the assembler knows reads as the name with its numbers. -/
theorem assembleLine_of_name {name : List Char} (hn : name ∈ asmNames.map Prod.fst) (ops : List (Radix × Nat))
    {remark : List Char} (hr : ∀ c ∈ remark.takeWhile (fun c => c != ';'), asmBlank c = true) :
    assembleLine (lineText name ops ++ remark) = (assembleNamed name (ops.map Prod.snd)).map some := by
  obtain ⟨hne, hplain⟩ := asmNames_plain name hn
  exact assembleLine_lineText hne hplain ops hr

/-- Settles O49: a written line reads as its name and its numbers, and those of a command name the command; the five
example lines are computed. -/
theorem writtenLinesAssembleToTheirCommands : Obligations.WrittenLinesAssembleToTheirCommands := by
  refine ⟨fun i ops remark hw ho hr => ?_, fun name hn ops remark hr => assembleLine_of_name hn ops hr,
    rfl, rfl, rfl, rfl, rfl⟩
  rw [assembleLine_of_name (instrMnemonic_mem i) ops hr, ho, assembleNamed_instr hw]
  rfl

end Sys2Proof.Machine

namespace Sys2Proof.Machine

/-! ### Well-formedness is inductive -/

/-- R15, R12: only `Effect` moves the two lengths, and reset sets both to zero. -/
theorem capacity_stepInvariant : StepInvariant fun s => s.wLen ≤ s.cfg.wcap ∧ s.rLen ≤ s.cfg.rcap where
  onRespond _ _ h := h
  onRecord _ _ h := by simpa [State.wLen] using h
  onEffect _ _ _ _ he h := he.capacity h
  onTake _ _ h := h
  onSourceWrite _ _ _ _ h := h
  onReset s _ := ⟨Nat.zero_le s.cfg.wcap, Nat.zero_le s.cfg.rcap⟩

/-- R6: no step changes the parameters. -/
theorem legal_stepInvariant : StepInvariant fun s => s.cfg.legal where
  onRespond _ _ h := h
  onRecord _ _ h := by rwa [record_cfg]
  onEffect _ _ _ _ he h := by rwa [he.frame.cfg]
  onTake _ _ h := h
  onSourceWrite _ _ _ _ h := h
  onReset _ h := h

/-- R30: only the host's source write changes `SRC`, at an index that `SRC` has. -/
theorem srcInv_stepInvariant : StepInvariant State.SrcInv where
  onRespond _ _ h := h
  onRecord _ _ h := by simpa [State.SrcInv] using h
  onEffect _ _ _ _ he h := by simpa only [State.SrcInv, he.frame.src, he.frame.cfg] using h
  onTake _ _ h := h
  onSourceWrite a b s ha h := by
    obtain ⟨hwf, hin⟩ := h
    refine ⟨write_wf hwf a b, fun c hc => ?_⟩
    obtain rfl | hc := mem_write hc
    · exact ha
    · exact hin c hc
  onReset _ h := h

/-- Settles O21: each part of `WellFormed` is an invariant of the step. -/
theorem stepKeepsWellFormed : Obligations.StepKeepsWellFormed := by
  intro s t ⟨hreader, hwriter, hwcap, hrcap, hlegal, hsrc⟩ h
  obtain ⟨hwcap', hrcap'⟩ := capacity_stepInvariant.of_step h ⟨hwcap, hrcap⟩
  exact ⟨readerInv_stepInvariant.of_step h hreader, writerInv_stepInvariant.of_step h hwriter, hwcap', hrcap',
    legal_stepInvariant.of_step h hlegal, srcInv_stepInvariant.of_step h hsrc⟩

/-! ### How far a command moves the cursors -/

@[simp] theorem record_rp (f : FaultCode) (s : State) : (record f s).rp = s.rp := by simp [State.rp]

@[simp] theorem record_wp (f : FaultCode) (s : State) : (record f s).wp = s.wp := by simp [State.wp, State.wLen]

/-- A write command that completes puts its field in (R72, R74, R75, R76, R78). -/
theorem Effect.appends {i : Instr} {s u : State} {r : Option Word} (h : Effect i s u r) {k : Nat}
    (hk : i.writeWidth = some k) : Appends k s u := by
  cases i <;> simp only [Instr.writeWidth, reduceCtorEq, Option.some.injEq] at hk <;> subst hk
  case wbits | wbit => obtain ⟨_, _, ⟨_, _, ha⟩, _⟩ := h; exact ha
  case wr8 | wr16 | wr32 => obtain ⟨_, ⟨_, _, ha⟩, _⟩ := h; exact ha

/-- The read cursor after a command that completes: `RREAD` and `RALIGN` move it, `RBIND` sets it back, and no other
command touches it (R120). -/
theorem Effect.rp_eq {i : Instr} {s u : State} {r : Option Word} (h : Effect i s u r) : u.rp =
    match i with
    | .rbind _ => 0
    | .rread n => s.rp + n.toNat
    | .ralign => (s.rp + 7) / 8 * 8
    | _ => s.rp := by
  have hother : i.half ≠ .reader → u.rp = s.rp := fun hh => by
    obtain ⟨hbyte, hbit, _, _⟩ := h.frame.reader hh
    rw [State.rp, hbyte, hbit, State.rp]
  cases i
  case rbind => obtain ⟨_, rfl, _⟩ := h; rfl
  case rread => obtain ⟨_, _, _, rfl, _⟩ := h; exact seekR_rp _ _
  case ralign => obtain ⟨_, rfl, _⟩ := h; exact seekR_rp _ _
  case ratend => obtain ⟨_, rfl, _⟩ := h; rfl
  all_goals exact hother (by simp [Instr.half])

/-- `WALIGN` moves the write cursor to the boundary at or after it (R77, R120). -/
theorem Effect.walign_wp {s u : State} {r : Option Word} (h : Effect .walign s u r) : u.wp = (s.wp + 7) / 8 * 8 := by
  have hlt := wFill_lt s
  obtain ⟨_, _, ⟨hf, rfl⟩ | ⟨hf, _, rfl⟩⟩ := h
  · simp only [State.wp, hf, Fin.val_zero]; omega
  · have hpos : s.wFill.val ≠ 0 := fun e => hf (Fin.ext e)
    simp only [State.wp, State.wLen, List.length_append, List.length_singleton, Fin.val_zero]; omega

/-- A command that neither writes nor starts a session nor aligns leaves the writer's bytes and cursor alone. -/
theorem Effect.writer_kept {i : Instr} {s u : State} {r : Option Word} (h : Effect i s u r)
    (hw : i.writeWidth = none) (hn : i ≠ .wnew) (ha : i ≠ .walign) : u.wbuf = s.wbuf ∧ u.wp = s.wp := by
  cases i <;> simp only [Instr.writeWidth, reduceCtorEq, ne_eq, not_true_eq_false] at hw hn ha
  case status => obtain ⟨rfl, _⟩ := h; exact ⟨rfl, rfl⟩
  case rread => obtain ⟨_, _, _, rfl, _⟩ := h; exact ⟨rfl, rfl⟩
  all_goals obtain ⟨_, rfl, _⟩ := h; exact ⟨rfl, rfl⟩

/-- Only `WNEW` takes committed bytes back (R38). -/
theorem Effect.snapshot_grows {i : Instr} {s u : State} {r : Option Word} (h : Effect i s u r) (hn : i ≠ .wnew) :
    s.wbuf <+: u.wbuf ∧ s.wp ≤ u.wp := by
  cases hk : i.writeWidth with
  | some k =>
    have ha := h.appends hk
    exact ⟨ha.grows, by rw [ha.moves]; omega⟩
  | none =>
    by_cases hi : i = .walign
    · subst hi
      refine ⟨?_, by rw [h.walign_wp]; omega⟩
      obtain ⟨_, _, ⟨_, rfl⟩ | ⟨_, _, rfl⟩⟩ := h
      · exact List.prefix_refl _
      · exact List.prefix_append _ _
    · obtain ⟨hbuf, hwp⟩ := h.writer_kept hk hn hi
      exact ⟨hbuf ▸ List.prefix_refl _, hwp.ge⟩

/-- Only `RBIND` moves the read cursor back. -/
theorem Effect.rp_le {i : Instr} {s u : State} {r : Option Word} (h : Effect i s u r) (hn : ∀ len, i ≠ .rbind len) :
    s.rp ≤ u.rp := by
  rw [h.rp_eq]
  cases i
  case rbind len => exact absurd rfl (hn len)
  case ralign => dsimp only; omega
  all_goals simp

/-- Refusals and faults move no cursor, so what `Effect` keeps every answer keeps. -/
theorem Answers.snapshot_grows {i : Instr} {s t : State} (h : Answers i s t) (hn : i ≠ .wnew) :
    snapshot s <+: snapshot t ∧ s.wp ≤ t.wp := by
  cases h with
  | refused => exact ⟨List.prefix_refl _, Nat.le_refl _⟩
  | raised f => simp [snapshot]
  | completed u r _ he => exact he.snapshot_grows hn

theorem Answers.rp_le {i : Instr} {s t : State} (h : Answers i s t) (hn : ∀ len, i ≠ .rbind len) : s.rp ≤ t.rp := by
  cases h with
  | refused => exact Nat.le_refl _
  | raised f => simp
  | completed u r _ he => exact he.rp_le hn

/-- A relation that every command of a list keeps holds from the state before the list to the state after it. -/
theorem runCommands_induction {R : State → State → Prop} (hrefl : ∀ s, R s s)
    (htrans : ∀ s u t, R s u → R u t → R s t) {is : List Instr} (hstep : ∀ i ∈ is, ∀ s u, Answers i s u → R s u)
    {s t : State} (h : runCommands is s = .next t) : R s t := by
  induction is generalizing s with
  | nil => cases h; exact hrefl _
  | cons i is ih =>
    obtain ⟨u, hu, ht⟩ := runCommands_cons_inv h
    obtain ⟨hi, his⟩ := List.forall_mem_cons.1 hstep
    exact htrans s u t (hi s u (exec_cases hu)) (ih his ht)

/-- Settles O17: both relations are preorders that every command but the constructor of the half keeps. -/
theorem snapshotOnlyGrowsWithinASession : Obligations.SnapshotOnlyGrowsWithinASession := by
  refine fun is s t h => ⟨fun hn => ?_, fun hn => ?_⟩
  · exact runCommands_induction (R := fun s t => snapshot s <+: snapshot t ∧ s.wp ≤ t.wp)
      (fun _ => ⟨List.prefix_refl _, Nat.le_refl _⟩)
      (fun _ _ _ ⟨hsu, hle⟩ ⟨hut, hle'⟩ => ⟨hsu.trans hut, hle.trans hle'⟩)
      (fun i hi _ _ ha => ha.snapshot_grows (hn i hi)) h
  · exact runCommands_induction (R := fun s t => s.rp ≤ t.rp) (fun _ => Nat.le_refl _) (fun _ _ _ => Nat.le_trans)
      (fun i hi _ _ ha => ha.rp_le (hn i hi)) h

end Sys2Proof.Machine

namespace Sys2Proof.Machine

/-! ### The answer of a command is determined by what it says

`exec_cases` reads an answer off what a command did. These lemmas give the other direction: of the three answers at most
one fits a state, and each is unique, so one that fits is what the command does. -/

theorem Wrote.deterministic {n : Nat} {imm : Word} {s u v : State} (hu : Wrote n imm s u) (hv : Wrote n imm s v) :
    u = v := by
  obtain ⟨_, hput, _⟩ := hu
  obtain ⟨_, hput', _⟩ := hv
  exact Option.some.inj (hput.symm.trans hput')

/-- A state has at most one effect of a command. -/
theorem Effect.deterministic {i : Instr} {s u v : State} {r q : Option Word} (h : Effect i s u r)
    (k : Effect i s v q) : u = v ∧ r = q := by
  cases i <;> simp only [Effect] at h k
  case wbits | wbit =>
    obtain ⟨_, _, hw, rfl⟩ := h; obtain ⟨_, _, hw', rfl⟩ := k; exact ⟨hw.deterministic hw', rfl⟩
  case wr8 | wr16 | wr32 => obtain ⟨_, hw, rfl⟩ := h; obtain ⟨_, hw', rfl⟩ := k; exact ⟨hw.deterministic hw', rfl⟩
  case walign =>
    obtain ⟨_, rfl, ⟨hf, rfl⟩ | ⟨hf, _, rfl⟩⟩ := h <;> obtain ⟨_, rfl, ⟨hf', rfl⟩ | ⟨hf', _, rfl⟩⟩ := k
    · exact ⟨rfl, rfl⟩
    · exact absurd hf hf'
    · exact absurd hf' hf
    · exact ⟨rfl, rfl⟩
  case wrdbyte =>
    obtain ⟨_, rfl, b, hb, rfl⟩ := h; obtain ⟨_, rfl, c, hc, rfl⟩ := k
    rw [Option.some.inj (hb.symm.trans hc)]
    exact ⟨rfl, rfl⟩
  case wnew | status => obtain ⟨rfl, rfl⟩ := h; obtain ⟨rfl, rfl⟩ := k; exact ⟨rfl, rfl⟩
  case rread => obtain ⟨_, _, _, rfl, rfl⟩ := h; obtain ⟨_, _, _, rfl, rfl⟩ := k; exact ⟨rfl, rfl⟩
  all_goals obtain ⟨_, rfl, rfl⟩ := h; obtain ⟨_, rfl, rfl⟩ := k; exact ⟨rfl, rfl⟩

/-- A state has at most one fault of a command. -/
theorem Faults.deterministic {i : Instr} {s : State} {f g : FaultCode} (h : Faults i s f) (k : Faults i s g) :
    f = g := by
  cases i <;> simp only [Faults] at h k
  case rread | wbits | wbit =>
    obtain ⟨rfl, hv⟩ | ⟨rfl, hv, _⟩ := h <;> obtain ⟨rfl, hv'⟩ | ⟨rfl, hv', _⟩ := k
    · rfl
    · rw [hv] at hv'; cases hv'
    · rw [hv] at hv'; cases hv'
    · rfl
  all_goals exact h.1.trans k.1.symm

/-- A command that completes raises no fault. -/
theorem Effect.not_faults {i : Instr} {s u : State} {r : Option Word} {f : FaultCode} (h : Effect i s u r) :
    ¬ Faults i s f := by
  intro k
  cases i <;> simp only [Effect, Faults] at h k
  case rbind => omega
  case rread =>
    obtain ⟨hv, _, hfit, _⟩ := h
    obtain ⟨_, hv'⟩ | ⟨_, _, _, hover⟩ := k
    · rw [hv] at hv'; cases hv'
    · omega
  case wbits | wbit =>
    obtain ⟨hv, _, ⟨hfit, _⟩, _⟩ := h
    obtain ⟨_, hv'⟩ | ⟨_, _, _, hover⟩ := k
    · rw [hv] at hv'; cases hv'
    · omega
  case wr8 | wr16 | wr32 => obtain ⟨_, ⟨hfit, _⟩, _⟩ := h; omega
  case walign =>
    obtain ⟨_, _, hfill, hover⟩ := k
    obtain ⟨_, _, ⟨hf, _⟩ | ⟨_, hfit, _⟩⟩ := h
    · exact hfill hf
    · omega
  case wrdbyte =>
    obtain ⟨_, _, b, hb, _⟩ := h
    obtain ⟨_, _, hover⟩ := k
    rw [List.getElem?_eq_none hover] at hb; cases hb

/-- A command that completes does so in a half that is not halted. -/
theorem Effect.not_halted {i : Instr} {s u : State} {r : Option Word} (h : Effect i s u r) : ¬ Halted i s := by
  rintro ⟨hc, _, _, ⟨hh, he⟩ | ⟨hh, he⟩⟩ <;> cases i <;>
    simp only [Effect, Instr.half, Instr.isConstructor, reduceCtorEq] at h hh hc
  case inl.rread => obtain ⟨_, he', _⟩ := h; exact he he'
  case inr.wbits | inr.wbit => obtain ⟨_, he', _⟩ := h; exact he he'
  all_goals exact he h.1

/-- A command of a halted half that has a valid width and a legal operand raises no fault. -/
theorem Faults.not_halted {i : Instr} {s : State} {f : FaultCode} (h : Faults i s f) : ¬ Halted i s := by
  rintro ⟨hc, hv, hw, ⟨hh, he⟩ | ⟨hh, he⟩⟩ <;> cases i <;>
    simp only [Faults, Instr.half, Instr.isConstructor, reduceCtorEq] at h hh hc
  case inl.rread | inr.wbits =>
    obtain ⟨_, hv'⟩ | ⟨_, _, he', _⟩ := h
    · exact Bool.noConfusion (hv.symm.trans (congrArg not hv'))
    · exact he he'
  case inr.wbit =>
    obtain ⟨_, hb⟩ | ⟨_, _, he', _⟩ := h
    · exact Bool.noConfusion (hw.symm.trans hb)
    · exact he he'
  all_goals exact he h.2.1

/-- At most one answer fits a state. -/
theorem Answers.deterministic {i : Instr} {s t t' : State} (h : Answers i s t) (k : Answers i s t') : t = t' := by
  cases h with
  | refused h =>
    cases k with
    | refused => rfl
    | raised f h0 hf => exact (h.elim (fun h => h.1 h0) fun h => hf.not_halted h.2).elim
    | completed u r h0 he =>
      exact (h.elim (fun h => h0.elim h.1 h.2) fun h => he.not_halted h.2).elim
  | raised f h0 hf =>
    cases k with
    | refused h => exact (h.elim (fun h => h.1 h0) fun h => hf.not_halted h.2).elim
    | raised g _ hg => rw [hf.deterministic hg]
    | completed u r _ he => exact (he.not_faults hf).elim
  | completed u r h0 he =>
    cases k with
    | refused h => exact (h.elim (fun h => h0.elim h.1 h.2) fun h => he.not_halted h.2).elim
    | raised f _ hf => exact (he.not_faults hf).elim
    | completed v q _ he' =>
      obtain ⟨rfl, rfl⟩ := he.deterministic he'
      rfl

/-- The answer that fits is what the command does. -/
theorem exec_of_answers {i : Instr} {s t : State} (h : Answers i s t) : exec i s = .next t := by
  obtain ⟨u, hu, ha⟩ := exec_answers i s
  rw [hu, h.deterministic ha]

/-- A command that meets the condition of a fault raises it. -/
theorem exec_of_faults {i : Instr} {s : State} {f : FaultCode} (h0 : s.fatal = .none) (h : Faults i s f) :
    exec i s = .next (raise f s) := exec_of_answers (.raised f h0 h)

/-- A command that can have its effect completes with it. -/
theorem exec_of_effect {i : Instr} {s u : State} {r : Option Word} (h0 : s.fatal = .none) (h : Effect i s u r) :
    exec i s = .next (respond ⟨.ok, r⟩ u) := exec_of_answers (.completed u r (.inl h0) h)

/-- A command answered `OK` has had its effect. -/
theorem effect_of_exec_ok {i : Instr} {s t : State} {r : Option Word} (h : exec i s = .next t)
    (hr : t.responses = s.responses ++ [⟨.ok, r⟩]) :
    ∃ u, (s.fatal = .none ∨ i = .status) ∧ Effect i s u r ∧ t = respond ⟨.ok, r⟩ u := by
  cases exec_cases h with
  | refused => simp at hr
  | raised f => cases f <;> simp [FaultCode.status] at hr
  | completed u q h0 he =>
    obtain rfl : q = r := by simpa [he.frame.responses] using hr
    exact ⟨u, h0, he, rfl⟩

end Sys2Proof.Machine

namespace Sys2Proof.Machine

/-! ### The status of an answer -/

/-- A field of whole bytes commits as many bytes as it has, at any fill count (R74, R75, R76). -/
theorem wp_add_bytes_div (s : State) (c : Nat) : (s.wp + 8 * c) / 8 = s.wLen + c := by
  rw [wLen_eq]; omega

theorem wp_add_8_div (s : State) : (s.wp + 8) / 8 = s.wLen + 1 := wp_add_bytes_div s 1

theorem wp_add_16_div (s : State) : (s.wp + 16) / 8 = s.wLen + 2 := wp_add_bytes_div s 2

theorem wp_add_32_div (s : State) : (s.wp + 32) / 8 = s.wLen + 4 := wp_add_bytes_div s 4

/-- One bit passes the capacity exactly when it completes the byte at `WCAP` (R78, R95). -/
theorem wovf_bit_iff {s : State} (hc : s.wLen ≤ s.cfg.wcap) :
    s.cfg.wcap < (s.wp + 1) / 8 ↔ s.wFill = 7 ∧ s.cfg.wcap < s.wLen + 1 := by
  have hlt := wFill_lt s
  have h7 : s.wFill = 7 ↔ s.wFill.val = 7 := Fin.ext_iff
  rw [h7, State.wp]; omega

theorem bitOperandLegal_iff (imm : Word) : bitOperandLegal imm = true ↔ ¬ imm.toNat > 1 := by simp [bitOperandLegal]

theorem bitOperandLegal_false_iff (imm : Word) : bitOperandLegal imm = false ↔ imm.toNat > 1 := by
  simp [bitOperandLegal]

theorem widthValid_iff_not (n : Width) : widthValid n = true ↔ ¬ (n.toNat = 0 ∨ n.toNat > 32) := by
  rw [widthValid_iff]; omega

theorem statusOfTable_fatal {i : Instr} {s : State} (h0 : s.fatal ≠ .none) (hi : i ≠ .status) :
    statusOfTable i s = .eHalted := by
  cases i <;> simp_all [statusOfTable]

theorem statusOfTable_halted {i : Instr} {s : State} (h : Halted i s) (h0 : s.fatal = .none) :
    statusOfTable i s = .eHalted := by
  obtain ⟨hc, hv, hw, ⟨hh, he⟩ | ⟨hh, he⟩⟩ := h <;> cases i <;>
    simp only [Instr.half, Instr.isConstructor, reduceCtorEq] at hh hc
  case inl.rread n | inr.wbits n _ =>
    have hn := (widthValid_iff_not n).1 ((Bool.not_eq_false' _).mp hv)
    simp [statusOfTable, h0, he, hn]
  case inr.wbit imm =>
    have hb := (bitOperandLegal_iff imm).1 hw
    simp [statusOfTable, h0, he, hb]
  all_goals simp [statusOfTable, he]

theorem statusOfTable_faults {i : Instr} {s : State} {f : FaultCode} (h : Faults i s f) (h0 : s.fatal = .none)
    (hc : s.wLen ≤ s.cfg.wcap) : statusOfTable i s = f.status := by
  cases i <;> simp only [Faults, wp_add_8_div, wp_add_16_div, wp_add_32_div] at h
  case rbind => obtain ⟨rfl, hover⟩ := h; simp [statusOfTable, h0, hover, FaultCode.status]
  case rread n | wbits n _ =>
    obtain ⟨rfl, hv⟩ | ⟨rfl, hv, he, hover⟩ := h
    · have hn : n.toNat = 0 ∨ n.toNat > 32 := (widthValid_false_iff n).1 hv
      simp [statusOfTable, h0, hn, FaultCode.status]
    · have hn := (widthValid_iff_not n).1 hv
      simp [statusOfTable, h0, he, hn, hover, FaultCode.status]
  case wbit imm =>
    obtain ⟨rfl, hb⟩ | ⟨rfl, hb, he, hover⟩ := h
    · have hb' := (bitOperandLegal_false_iff imm).1 hb
      simp [statusOfTable, h0, hb', FaultCode.status]
    · have hb' := (bitOperandLegal_iff imm).1 hb
      obtain ⟨hfill, hlen⟩ := (wovf_bit_iff hc).1 hover
      simp [statusOfTable, h0, he, hb', hfill, hlen, FaultCode.status]
  case wr8 | wr16 | wr32 | wrdbyte =>
    obtain ⟨rfl, he, hover⟩ := h
    simp [statusOfTable, h0, he, hover, FaultCode.status]
  case walign =>
    obtain ⟨rfl, he, hfill, hover⟩ := h
    simp [statusOfTable, h0, he, hfill, hover, FaultCode.status]

theorem statusOfTable_effect {i : Instr} {s u : State} {r : Option Word} (h : Effect i s u r)
    (h0 : s.fatal = .none ∨ i = .status) (hc : s.wLen ≤ s.cfg.wcap) : statusOfTable i s = .ok := by
  obtain h0 | rfl := h0
  swap
  · rfl
  cases i <;> simp only [Effect, Wrote, wp_add_8_div, wp_add_16_div, wp_add_32_div] at h
  case rbind => obtain ⟨hfit, _⟩ := h; simp [statusOfTable, h0, hfit]
  case rread n =>
    obtain ⟨hv, he, hfit, _⟩ := h
    have hn := (widthValid_iff_not n).1 hv
    simp [statusOfTable, h0, he, hn, hfit]
  case wbits n _ =>
    obtain ⟨hv, he, ⟨hfit, _⟩, _⟩ := h
    have hn := (widthValid_iff_not n).1 hv
    simp [statusOfTable, h0, he, hn, hfit]
  case wbit imm =>
    obtain ⟨hb, he, ⟨hfit, _⟩, _⟩ := h
    have hb' := (bitOperandLegal_iff imm).1 hb
    have hbit := (wovf_bit_iff hc).not.1 (Nat.not_lt.2 hfit)
    simp only [statusOfTable, h0, he, hb', hbit, ne_eq, not_true_eq_false, if_false]
  case wr8 | wr16 | wr32 =>
    obtain ⟨he, ⟨hfit, _⟩, _⟩ := h
    simp only [statusOfTable, h0, he, Nat.not_lt.2 hfit, ne_eq, not_true_eq_false, or_self, if_false]
  case walign =>
    obtain ⟨he, _, ⟨hf, _⟩ | ⟨_, hfit, _⟩⟩ := h
    · simp [statusOfTable, h0, he, hf]
    · simp only [statusOfTable, h0, he, Nat.not_lt.2 hfit, ne_eq, not_true_eq_false, and_false, or_self, if_false]
  case wrdbyte =>
    obtain ⟨he, _, b, hb, _⟩ := h
    obtain ⟨hlt, _⟩ := List.getElem?_eq_some_iff.1 hb
    simp [statusOfTable, h0, he, hlt]
  case ralign | ratend | wcount | wbegin | wend => simp [statusOfTable, h0, h.1]
  case wnew => simp [statusOfTable, h0]
  case status => rfl

/-- Settles O10: each of the three answers has the status its row of the table gives. -/
theorem answerStatusFollowsTheFaultTable : Obligations.AnswerStatusFollowsTheFaultTable := by
  refine ⟨fun i s hc => ?_, fun w s hd => ?_⟩
  · obtain ⟨t, ht, ha⟩ := exec_answers i s
    refine ⟨t, ?_⟩
    cases ha with
    | refused h =>
      refine ⟨_, ht, rfl, ?_⟩
      obtain ⟨h0, hi⟩ | ⟨h0, hh⟩ := h
      · exact (statusOfTable_fatal h0 hi).symm
      · exact (statusOfTable_halted hh h0).symm
    | raised f h0 hf =>
      exact ⟨_, ht, by rw [respond_responses, record_responses], (statusOfTable_faults hf h0 hc).symm⟩
    | completed u r h0 he =>
      exact ⟨_, ht, by rw [respond_responses, he.frame.responses], (statusOfTable_effect he h0 hc).symm⟩
  · rw [execute_illegal_eq_ite hd]
    split
    · exact ⟨_, rfl, rfl⟩
    · exact ⟨_, rfl, rfl⟩

/-! ### Which half a fault belongs to -/

/-- A fault of a command that is not of the reader half is not recorded there (R29, R96). -/
theorem Faults.record_rErr {i : Instr} {s : State} {f : FaultCode} (h : Faults i s f) (hh : i.half ≠ .reader) :
    (record f s).rErr = s.rErr := by
  cases i <;> simp only [Faults, Instr.half, ne_eq, not_true_eq_false] at h hh
  case wbits | wbit => obtain ⟨rfl, _⟩ | ⟨rfl, _⟩ := h <;> rfl
  all_goals obtain ⟨rfl, _⟩ := h; rfl

/-- A fault of a command that is not of the writer half is not recorded there (R29, R96). -/
theorem Faults.record_wErr {i : Instr} {s : State} {f : FaultCode} (h : Faults i s f) (hh : i.half ≠ .writer) :
    (record f s).wErr = s.wErr := by
  cases i <;> simp only [Faults, Instr.half, ne_eq, not_true_eq_false] at h hh
  case rread => obtain ⟨rfl, _⟩ | ⟨rfl, _⟩ := h <;> rfl
  case rbind => obtain ⟨rfl, _⟩ := h; rfl

/-- Settles O14: a refusal changes nothing, a fault only the register of its own half or `FATAL`, and completing has the
frame `Effect.frame`. -/
theorem commandsLeaveTheOtherHalfAndSrcAlone : Obligations.CommandsLeaveTheOtherHalfAndSrcAlone := by
  intro i s t h
  cases exec_cases h with
  | refused => simp [srcByte]
  | raised f _ hf =>
    exact ⟨fun hh => ⟨by simp, by simp, by simp, hf.record_wErr hh⟩,
      fun hh => ⟨by simp, by simp, by simp, hf.record_rErr hh⟩, srcByte_congr (by simp) (by simp), by simp⟩
  | completed u r _ he =>
    have hf := he.frame
    exact ⟨hf.writer, hf.reader, srcByte_congr hf.src hf.powerUp, hf.src, hf.cfg, hf.powerUp, hf.port⟩

/-- Settles O9: an answer `OK` is a completed effect, whose frame says it. -/
theorem successLeavesTheFaultRegisters : Obligations.SuccessLeavesTheFaultRegisters := by
  intro i s t r h hr
  obtain ⟨u, _, he, rfl⟩ := effect_of_exec_ok h hr
  have hf := he.frame
  exact ⟨hf.fatal, hf.bound, hf.rErr, hf.fresh, hf.wErr⟩

end Sys2Proof.Machine

namespace Sys2Proof.Machine

/-! ### One lemma per kind of transaction -/

theorem step_reset {s : State} {rest : List Transaction} (hp : s.port = .reset :: rest) :
    step s = .next (resetUnit (takeTransaction rest s)) := by
  simp only [step, hp, transact]

theorem step_sourceWrite {s : State} {a : Nat} {b : Byte} {rest : List Transaction}
    (hp : s.port = .sourceWrite a b :: rest) : step s = hostWriteSrc a b (takeTransaction rest s) := by
  simp only [step, hp, transact]

/-- A word read as its own number is the word (R45). -/
theorem withFetchWord_toNat (s : State) (w : CmdWord) : s.withFetchWord 48 w.toNat = presentCommand w s := by
  rw [State.withFetchWord, Nat.mod_eq_of_lt w.isLt, BitVec.ofNat_toNat, BitVec.setWidth_eq]

theorem step_presentCommand (w : CmdWord) (s : State) : step (presentCommand w s) = execute w s := rfl

/-- Settles O6: the step is `execute` on the state without the transaction, and that runs the decoded command. -/
theorem stepRunsTheDecodedCommand : Obligations.StepRunsTheDecodedCommand := by
  refine ⟨fun s w rest i hp hd => (step_command hp).trans (execute_of_decode_ok hd _), fun s w i hd => ?_⟩
  rw [withFetchWord_toNat, step_presentCommand, execute_of_decode_ok hd]

/-! ### The reset transaction -/

/-- Settles O18: the values stand in the reset state. -/
theorem resetStateHoldsTheResetValues : Obligations.ResetStateHoldsTheResetValues :=
  ⟨rfl, rfl, rfl, rfl, rfl, rfl, rfl, rfl, rfl, by decide, fun _ => List.getElem?_nil⟩

/-- Settles O20: the writer invariant holds of an empty open byte, and the source memory lists no byte. -/
theorem resetStateMeetsTheLaunchPremises : Obligations.ResetStateMeetsTheLaunchPremises := by
  have hwriter : State.reset.WriterInv := writerInv_zero State.reset
  have hsrc : State.reset.SrcInv := ⟨reset_memory_wf, fun c hc => absurd hc List.not_mem_nil⟩
  exact ⟨by decide, by decide, ⟨rfl, rfl⟩, by decide, ⟨by decide, hwriter, by decide, by decide, by decide, hsrc⟩,
    by decide⟩

/-! ### What clears a recorded fault -/

theorem Answers.fatal_kept {i : Instr} {s t : State} (h : Answers i s t) (h0 : s.fatal ≠ .none) :
    t.fatal = s.fatal := by
  cases h with
  | refused => rfl
  | raised f hf => exact absurd hf h0
  | completed u r _ he => exact he.frame.fatal

/-- R19, R101: `FATAL` is left only by a reset. -/
theorem reset_of_step_fatal_changed {s t : State} (h : step s = .next t) (h0 : s.fatal ≠ .none)
    (hne : t.fatal ≠ s.fatal) : ∃ rest, s.port = .reset :: rest := by
  cases step_cases h with
  | idle => exact absurd rfl hne
  | command w rest i _ _ _ ha => exact absurd (ha.fatal_kept h0) hne
  | illegal w rest _ _ hnone => exact absurd hnone h0
  | illegalHalted w rest => exact absurd rfl hne
  | sourceWrite a b rest => exact absurd rfl hne
  | reset rest hp => exact ⟨rest, hp⟩

theorem record_rErr_ne_none (f : FaultCode) {s : State} (h : s.rErr ≠ .none) : (record f s).rErr ≠ .none := by
  cases f <;> simp [h]

theorem record_wErr_ne_none (f : FaultCode) {s : State} (h : s.wErr ≠ .none) : (record f s).wErr ≠ .none := by
  cases f <;> simp [h]

/-- The one command that clears `R.ERR` is an `RBIND` that starts a session (R60, R101). -/
theorem Answers.rErr_cleared {i : Instr} {s t : State} (h : Answers i s t) (he : s.rErr ≠ .none) (ht : t.rErr = .none) :
    ∃ len, i = .rbind len ∧ s.fatal = .none ∧ len.toNat ≤ s.cfg.rcap ∧ t.rLen = len.toNat ∧ t.rByte = 0 ∧
      t.rBit = 0 := by
  cases h with
  | refused => exact absurd ht he
  | raised f => exact absurd ht (record_rErr_ne_none f he)
  | completed u r h0 hu =>
    by_cases hi : ∃ len, i = .rbind len
    · obtain ⟨len, rfl⟩ := hi
      obtain ⟨hfit, rfl, _⟩ := hu
      exact ⟨len, rfl, by simpa using h0, hfit, rfl, rfl, rfl⟩
    · exact absurd ((hu.frame.rErr fun len hl => hi ⟨len, hl⟩).symm.trans ht) he

/-- The one command that clears `W.ERR` is `WNEW` (R70, R101). -/
theorem Answers.wErr_cleared {i : Instr} {s t : State} (h : Answers i s t) (he : s.wErr ≠ .none) (ht : t.wErr = .none) :
    i = .wnew ∧ s.fatal = .none ∧ t.wbuf = [] ∧ t.wFill = 0 := by
  cases h with
  | refused => exact absurd ht he
  | raised f => exact absurd ht (record_wErr_ne_none f he)
  | completed u r h0 hu =>
    by_cases hi : i = .wnew
    · subst hi
      obtain ⟨rfl, _⟩ := hu
      exact ⟨rfl, by simpa using h0, rfl, rfl⟩
    · exact absurd ((hu.frame.wErr hi).symm.trans ht) he

theorem step_rErr_cleared {s t : State} (h : step s = .next t) (he : s.rErr ≠ .none) (ht : t.rErr = .none) :
    (∃ rest, s.port = .reset :: rest) ∨ ∃ w rest len, s.port = .command w :: rest ∧ decode w = .ok (.rbind len) ∧
      s.fatal = .none ∧ len.toNat ≤ s.cfg.rcap ∧ t.rLen = len.toNat ∧ t.rByte = 0 ∧ t.rBit = 0 := by
  cases step_cases h with
  | idle => exact absurd ht he
  | command w rest i _ hp hd ha =>
    obtain ⟨len, rfl, hset⟩ := ha.rErr_cleared he ht
    exact .inr ⟨w, rest, len, hp, hd, hset⟩
  | illegal w rest => exact absurd ht he
  | illegalHalted w rest => exact absurd ht he
  | sourceWrite a b rest => exact absurd ht he
  | reset rest hp => exact .inl ⟨rest, hp⟩

theorem step_wErr_cleared {s t : State} (h : step s = .next t) (he : s.wErr ≠ .none) (ht : t.wErr = .none) :
    (∃ rest, s.port = .reset :: rest) ∨ ∃ w rest, s.port = .command w :: rest ∧ decode w = .ok .wnew ∧
      s.fatal = .none ∧ t.wbuf = [] ∧ t.wFill = 0 := by
  cases step_cases h with
  | idle => exact absurd ht he
  | command w rest i _ hp hd ha =>
    obtain ⟨rfl, hset⟩ := ha.wErr_cleared he ht
    exact .inr ⟨w, rest, hp, hd, hset⟩
  | illegal w rest => exact absurd ht he
  | illegalHalted w rest => exact absurd ht he
  | sourceWrite a b rest => exact absurd ht he
  | reset rest hp => exact .inl ⟨rest, hp⟩

/-- `RBIND` up to `RCAP` starts a session, whatever the reader half recorded (R60, R98). -/
theorem exec_rbind_ok {len : Word} {s : State} (h0 : s.fatal = .none) (hl : len.toNat ≤ s.cfg.rcap) :
    exec (.rbind len) s = .next (respond ⟨.ok, none⟩ (startReader len.toNat s)) :=
  exec_of_effect h0 ⟨hl, rfl, rfl⟩

/-- `WNEW` starts a session, whatever the writer half recorded (R70, R98). -/
theorem exec_wnew_ok {s : State} (h0 : s.fatal = .none) :
    exec .wnew s = .next (respond ⟨.ok, none⟩ (startWriter s)) :=
  exec_of_effect h0 ⟨rfl, rfl⟩

/-- Settles O12: each register is followed through all that a step can do. -/
theorem recordedFaultIsClearedOnlyByItsRecovery : Obligations.RecordedFaultIsClearedOnlyByItsRecovery :=
  ⟨fun _ _ => reset_of_step_fatal_changed, fun _ _ => step_rErr_cleared, fun _ _ => step_wErr_cleared,
    fun _ _ => step_reset, fun _ _ h0 hl => ⟨_, exec_rbind_ok h0 hl, rfl⟩, fun _ h0 => ⟨_, exec_wnew_ok h0, rfl⟩⟩

/-- Settles O19: the state after a reset transaction is `resetUnit`, and nothing else leaves `FATAL`. -/
theorem resetTransactionSetsEveryRegister : Obligations.ResetTransactionSetsEveryRegister := by
  refine ⟨fun s rest hp => ⟨_, step_reset hp, rfl, rfl, rfl, rfl, rfl, rfl, ⟨rfl, rfl, rfl⟩, ⟨rfl, rfl⟩,
    ⟨rfl, rfl, rfl, rfl⟩, fun _ => List.getElem?_nil, fun _ => rfl, rfl, rfl, rfl⟩, fun s t h h0 ht => ?_⟩
  exact reset_of_step_fatal_changed h h0 (ht ▸ h0.symm)

/-! ### The source write -/

/-- Settles O45: the transaction is `hostWriteSrc`, whose two bounds are the two stops. -/
theorem sourceWriteChangesOneByte : Obligations.SourceWriteChangesOneByte := by
  intro s a b rest hp
  rw [step_sourceWrite hp]
  refine ⟨fun hl hc => ?_, fun hl => if_pos hl, fun hl hc => (if_neg hl.not_gt).trans (if_pos hc)⟩
  exact ⟨_, (if_neg hl.not_gt).trans (if_neg hc.not_ge), rfl, fun x => srcByte_write (takeTransaction rest s) a x b⟩

/-! ### Codes -/

/-- Settles O50: the codes are computed; a fault appends one response without a result; and the two parts of the 36 bits
are the two parts of an append. -/
theorem codesAreTheNumbersOfTheTable : Obligations.CodesAreTheNumbersOfTheTable := by
  refine ⟨rfl, fun _ => ⟨rfl, rfl, rfl, rfl, rfl, rfl⟩, fun f s => ?_, fun r => ⟨?_, ?_⟩⟩
  · rw [raise_eq, respond_responses, record_responses, List.map_append]
    rfl
  · exact BitVec.extractLsb'_append_eq_left
  · have hdata : r.pins.extractLsb' 0 32 = r.data := BitVec.extractLsb'_append_eq_right
    rw [hdata, Response.data]
    cases r.result <;> rfl

end Sys2Proof.Machine

namespace Sys2Proof.Machine

/-! ### One half exchanged for that of another state

The two runs of a noninterference statement differ by such an exchange (R29). -/

/-- The state with the writer half of another. -/
def State.withWriterOf (s w : State) : State :=
  { s with wbuf := w.wbuf, wFill := w.wFill, wAcc := w.wAcc, wErr := w.wErr }

/-- The state with the reader half of another, and its source memory. -/
def State.withReaderOf (s q : State) : State :=
  { s with rByte := q.rByte, rBit := q.rBit, rLen := q.rLen, rErr := q.rErr, src := q.src, powerUp := q.powerUp }

theorem Halted.withWriterOf {i : Instr} {s : State} (h : Halted i s) (hh : i.half = .reader) (w : State) :
    Halted i (s.withWriterOf w) := by
  obtain ⟨hc, hv, hw, he | ⟨hh', _⟩⟩ := h
  · exact ⟨hc, hv, hw, .inl he⟩
  · rw [hh] at hh'; cases hh'

theorem Faults.withWriterOf {i : Instr} {s : State} {f : FaultCode} (h : Faults i s f) (hh : i.half = .reader)
    (w : State) : Faults i (s.withWriterOf w) f ∧
      record f (s.withWriterOf w) = (record f s).withWriterOf w := by
  cases i <;> simp only [Instr.half, reduceCtorEq] at hh <;> refine ⟨h, ?_⟩
  case rbind => obtain ⟨rfl, _⟩ := h; rfl
  case rread => obtain ⟨rfl, _⟩ | ⟨rfl, _⟩ := h <;> rfl
  all_goals exact h.elim

theorem Effect.withWriterOf {i : Instr} {s u : State} {r : Option Word} (h : Effect i s u r) (hh : i.half = .reader)
    (w : State) : Effect i (s.withWriterOf w) (u.withWriterOf w) r := by
  cases i <;> simp only [Instr.half, reduceCtorEq] at hh
  case rread => obtain ⟨hv, he, hl, rfl, rfl⟩ := h; exact ⟨hv, he, hl, rfl, rfl⟩
  all_goals obtain ⟨hc, rfl, rfl⟩ := h; exact ⟨hc, rfl, rfl⟩

/-- A command of the reader half answers alike whatever the writer half holds. -/
theorem Answers.withWriterOf {i : Instr} {s t : State} (h : Answers i s t) (hh : i.half = .reader) (w : State) :
    Answers i (s.withWriterOf w) (t.withWriterOf w) := by
  cases h with
  | refused h => exact .refused (h.imp id fun h => ⟨h.1, h.2.withWriterOf hh w⟩)
  | raised f h0 hf =>
    obtain ⟨hf', hrec⟩ := hf.withWriterOf hh w
    have ha := Answers.raised f (s := s.withWriterOf w) h0 hf'
    rwa [hrec] at ha
  | completed u r h0 he => exact .completed (u.withWriterOf w) r h0 (he.withWriterOf hh w)

theorem Halted.withReaderOf {i : Instr} {s : State} (h : Halted i s) (hh : i.half = .writer) (q : State) :
    Halted i (s.withReaderOf q) := by
  obtain ⟨hc, hv, hw, ⟨hh', _⟩ | he⟩ := h
  · rw [hh] at hh'; cases hh'
  · exact ⟨hc, hv, hw, .inr he⟩

theorem Faults.withReaderOf {i : Instr} {s : State} {f : FaultCode} (h : Faults i s f) (hh : i.half = .writer)
    (q : State) : Faults i (s.withReaderOf q) f ∧
      record f (s.withReaderOf q) = (record f s).withReaderOf q := by
  cases i <;> simp only [Instr.half, reduceCtorEq] at hh <;> refine ⟨h, ?_⟩
  case wbits | wbit => obtain ⟨rfl, _⟩ | ⟨rfl, _⟩ := h <;> rfl
  case wr8 | wr16 | wr32 | walign | wrdbyte => obtain ⟨rfl, _⟩ := h; rfl
  all_goals exact h.elim

/-- `PutBit(b)` has no byte of the buffer to complete at `WCAP` (R44, R71). -/
theorem putBit_full {s : State} (b : Bool) (hf : s.wFill = 7) (hc : ¬ s.wLen < s.cfg.wcap) : putBit b s = none := by
  simp [putBit, hf, commitOpen, memWriteWbuf, hc]

theorem putBit_withReaderOf (b : Bool) (s q : State) :
    putBit b (s.withReaderOf q) = (putBit b s).map (·.withReaderOf q) := by
  by_cases hf : s.wFill = 7
  · by_cases hc : s.wLen < s.cfg.wcap
    · rw [putBit_close b hf hc, putBit_close (s := s.withReaderOf q) b hf hc]; rfl
    · rw [putBit_full b hf hc, putBit_full (s := s.withReaderOf q) b hf hc]; rfl
  · rw [putBit_open b hf, putBit_open (s := s.withReaderOf q) b hf]; rfl

theorem putField_withReaderOf (imm : Word) (n : Nat) (s q : State) :
    putField imm n (s.withReaderOf q) = (putField imm n s).map (·.withReaderOf q) := by
  induction n generalizing s with
  | zero => rfl
  | succ n ih =>
    rw [putField, putField, putBit_withReaderOf, Option.bind_map, Option.map_bind]
    exact congrArg _ (funext ih)

theorem Wrote.withReaderOf {n : Nat} {imm : Word} {s u : State} (h : Wrote n imm s u) (q : State) :
    Wrote n imm (s.withReaderOf q) (u.withReaderOf q) := by
  obtain ⟨hfit, hput, ha⟩ := h
  refine ⟨hfit, by rw [putField_withReaderOf, hput]; rfl, ?_, ha.grows, ha.moves⟩
  conv_lhs => rw [ha.frame]
  rfl

theorem Effect.withReaderOf {i : Instr} {s u : State} {r : Option Word} (h : Effect i s u r) (hh : i.half = .writer)
    (q : State) : Effect i (s.withReaderOf q) (u.withReaderOf q) r := by
  cases i <;> simp only [Instr.half, reduceCtorEq] at hh
  case wnew => obtain ⟨rfl, rfl⟩ := h; exact ⟨rfl, rfl⟩
  case wbits | wbit => obtain ⟨hv, he, hw, hr⟩ := h; exact ⟨hv, he, hw.withReaderOf q, hr⟩
  case wr8 | wr16 | wr32 => obtain ⟨he, hw, hr⟩ := h; exact ⟨he, hw.withReaderOf q, hr⟩
  case walign =>
    obtain ⟨he, hr, ⟨hf, rfl⟩ | ⟨hf, hc, rfl⟩⟩ := h
    · exact ⟨he, hr, .inl ⟨hf, rfl⟩⟩
    · exact ⟨he, hr, .inr ⟨hf, hc, rfl⟩⟩
  all_goals obtain ⟨he, rfl, hr⟩ := h; exact ⟨he, rfl, hr⟩

/-- A command of the writer half answers alike whatever the reader half and the source memory hold. -/
theorem Answers.withReaderOf {i : Instr} {s t : State} (h : Answers i s t) (hh : i.half = .writer) (q : State) :
    Answers i (s.withReaderOf q) (t.withReaderOf q) := by
  cases h with
  | refused h => exact .refused (h.imp id fun h => ⟨h.1, h.2.withReaderOf hh q⟩)
  | raised f h0 hf =>
    obtain ⟨hf', hrec⟩ := hf.withReaderOf hh q
    have ha := Answers.raised f (s := s.withReaderOf q) h0 hf'
    rwa [hrec] at ha
  | completed u r h0 he => exact .completed (u.withReaderOf q) r h0 (he.withReaderOf hh q)

/-- Settles O15: the answer with the other half exchanged fits, so it is the answer. -/
theorem halvesDoNotInfluenceEachOther : Obligations.HalvesDoNotInfluenceEachOther :=
  ⟨fun _ s _ buf fill acc err hh h =>
    exec_of_answers ((exec_cases h).withWriterOf hh { s with wbuf := buf, wFill := fill, wAcc := acc, wErr := err }),
   fun _ s _ byte bit len err mem draw hh h =>
    exec_of_answers ((exec_cases h).withReaderOf hh
      { s with rByte := byte, rBit := bit, rLen := len, rErr := err, src := mem, powerUp := draw })⟩

/-! ### What `RREAD` reads of the source memory -/

/-- The next `n` bits lie in the bytes from the cursor's on, below `R.LEN`, that start before the field ends (R37). -/
theorem nextBits_congr {s q : State} {n : Nat} (hrp : q.rp = s.rp) (hlen : q.rLen = s.rLen)
    (hfit : s.rp + n ≤ 8 * s.rLen)
    (h : ∀ a < s.rLen, s.rByte ≤ a → 8 * a < s.rp + n → srcByte q a = srcByte s a) : nextBits q n = nextBits s n := by
  have hfit' : q.rp + n ≤ 8 * q.rLen := by rw [hrp, hlen]; exact hfit
  rw [nextBits, nextBits, nextField_eq_map_range s hfit, nextField_eq_map_range q hfit', hrp]
  congr 2
  refine List.map_congr_left fun i hi => ?_
  have hin : i < n := List.mem_range.1 hi
  have hbyte : s.rByte ≤ (s.rp + i) / 8 := by unfold State.rp; omega
  rw [h ((s.rp + i) / 8) (by omega) hbyte (by omega)]

/-- The state with the source memory of another. -/
def State.withSourceOf (s q : State) : State := { s with src := q.src, powerUp := q.powerUp }

/-- Of the three answers of `RREAD` only the result of a completed read depends on source bytes. -/
theorem Answers.withSourceOf {n : Width} {s t : State} (h : Answers (.rread n) s t) (q : State)
    (hagree : ∀ a < s.rLen, s.rByte ≤ a → 8 * a < s.rp + n.toNat → srcByte (s.withSourceOf q) a = srcByte s a) :
    Answers (.rread n) (s.withSourceOf q) (t.withSourceOf q) := by
  cases h with
  | refused h => exact .refused h
  | raised f h0 hf =>
    have ha := Answers.raised f (i := .rread n) (s := s.withSourceOf q) h0 hf
    obtain ⟨rfl, _⟩ | ⟨rfl, _⟩ := hf <;> exact ha
  | completed u r h0 he =>
    obtain ⟨hv, hr, hfit, rfl, rfl⟩ := he
    have hbits : nextBits (s.withSourceOf q) n.toNat = nextBits s n.toNat := nextBits_congr rfl rfl hfit hagree
    exact .completed ((s.seekR (s.rp + n.toNat)).withSourceOf q) _ h0 ⟨hv, hr, hfit, rfl, congrArg some hbits.symm⟩

/-- Settles O16: the answer with the source memory exchanged fits, so it is the answer. -/
theorem rreadDependsOnlyOnTheBytesOfItsBits : Obligations.RreadDependsOnlyOnTheBytesOfItsBits :=
  fun _ s _ mem draw hagree h =>
    exec_of_answers ((exec_cases h).withSourceOf { s with src := mem, powerUp := draw } hagree)

end Sys2Proof.Machine

namespace Sys2Proof.Machine

/-! ### The statements on the reader half -/

/-- Settles O24: `RBIND` completes up to `RCAP` and raises `E_BIND` beyond it. -/
theorem rbindStartsAReaderSession : Obligations.RbindStartsAReaderSession :=
  fun _ _ h0 => ⟨fun hl => ⟨_, exec_rbind_ok h0 hl, rfl, rfl, rfl⟩, fun hl =>
    exec_of_faults (f := .eBind) h0 ⟨rfl, hl⟩⟩

/-- Settles O26: the condition of `E_OOR` is met. -/
theorem readPastTheEndConsumesNothing : Obligations.ReadPastTheEndConsumesNothing :=
  fun n _ h0 he hw hl => exec_of_faults (f := .eOor) h0 (.inr ⟨rfl, (widthValid_iff n).2 hw, he, hl⟩)

/-- Settles O27: the new cursor is the multiple of 8 at or after the old one. -/
theorem ralignMovesToTheBoundaryAtOrAfter : Obligations.RalignMovesToTheBoundaryAtOrAfter := by
  intro s h0 he
  have hbit : Fin.ofNat 8 ((s.rp + 7) / 8 * 8) = 0 := Fin.ext (Nat.mul_mod_left _ _)
  refine ⟨_, exec_ralign_ok s h0 he, by simp only [respond, State.seekR, hbit], ?_, ?_, fun hi => ?_⟩
  · rw [respond_rp, seekR_rp]; omega
  · rw [respond_rp, seekR_rp]; omega
  · have hp := (readerInv_iff s).1 hi
    rw [respond_rp, seekR_rp, respond_rLen, seekR_rLen]; omega

theorem queryWord_eq_one_iff (q : Bool) : queryWord q = 1 ↔ q = true := by cases q <;> decide

theorem queryWord_eq_zero_iff (q : Bool) : queryWord q = 0 ↔ q = false := by cases q <;> decide

/-- Under the reader invariant the cursor is in the byte `R.LEN` exactly at the end of the bound buffer (R13, R65). -/
theorem rByte_eq_rLen_iff {s : State} (hi : s.ReaderInv) : s.rByte = s.rLen ↔ s.rp = 8 * s.rLen := by
  have hle := (readerInv_iff s).1 hi
  have hlt := s.rBit.isLt
  unfold State.rp at hle ⊢
  omega

/-- Settles O28: the query is whether the cursor is at the end, and it is never beyond it. -/
theorem ratendTellsWhetherABitRemains : Obligations.RatendTellsWhetherABitRemains := by
  intro s h0 he hi
  have hle := (readerInv_iff s).1 hi
  refine ⟨_, exec_ratend_ok s h0 he, ?_, ?_⟩
  · rw [queryWord_eq_one_iff, decide_eq_true_iff, rByte_eq_rLen_iff hi]
  · rw [queryWord_eq_zero_iff, decide_eq_false_iff_not, rByte_eq_rLen_iff hi]; omega

/-! ### The statements on writing -/

/-- Settles O29: `WNEW` has no condition but the fatal halt. -/
theorem wnewStartsAWriterSession : Obligations.WnewStartsAWriterSession :=
  fun _ h0 => ⟨_, exec_wnew_ok h0, rfl, rfl, rfl⟩

/-- Settles O31: the fixed widths pass the width check, and a bit operand of 0 or 1 its must-be-zero check. -/
theorem fixedWidthWritesAreFieldWrites : Obligations.FixedWidthWritesAreFieldWrites := by
  have hpass : ∀ (n : Width) s k, legalWidth n → unlessFatal s k = unlessFatal s (whenWidth n s k) :=
    fun n s k hn => congrArg _ (whenWidth_pass s k hn).symm
  refine fun imm s => ⟨hpass 8 s _ (by decide), hpass 16 s _ (by decide), hpass 32 s _ (by decide), fun hb => ?_⟩
  have hlegal : bitOperandLegal imm = true := decide_eq_true hb
  exact (congrArg (unlessFatal s) (whenLegal_pass s _ hlegal)).trans (hpass 1 s _ (by decide))

/-- Settles O33: every write is the field write of its width, which checks the capacity first; `WALIGN` meets the
condition of its fault. -/
theorem writeBeyondCapacityWritesNothing : Obligations.WriteBeyondCapacityWritesNothing := by
  refine ⟨fun i k s hw hv hk h0 he hover => ?_,
    fun s h0 he hf hover => exec_of_faults (f := .eWovf) h0 ⟨rfl, he, hf, hover⟩⟩
  rw [exec_write i k s hw hv hk h0 he]
  obtain ⟨_, hraise⟩ | ⟨hfit, _⟩ := writeField_cases k i.valueField s
  · exact hraise
  · omega

/-! ### Fixed-width writes -/

/-- Eight bits of the low part of a value are a byte of the value. -/
theorem ofNat_lowBits_div {n a : Nat} (h : a + 8 ≤ n) (v : Word) :
    BitVec.ofNat 8 (lowBits n v / 2 ^ a) = v.extractLsb' a 8 := by
  refine BitVec.eq_of_getLsbD_eq fun i hi => ?_
  have hlt : i + a < n := by omega
  rw [BitVec.getLsbD_ofNat, BitVec.getLsbD_extractLsb', lowBits, Nat.testBit_div_two_pow, Nat.testBit_mod_two_pow,
    Nat.add_comm a i]
  simp [hi, hlt, BitVec.getLsbD]

/-- The bytes of a value of `c` bytes, most significant first (R35). -/
theorem leadingBytes_lowBits (c : Nat) (v : Word) : leadingBytes (8 * c) (lowBits (8 * c) v) c =
    (List.range c).map fun j => v.extractLsb' (8 * c - 8 * (j + 1)) 8 :=
  List.map_congr_left fun j hj => ofNat_lowBits_div (by have := List.mem_range.1 hj; omega) v

/-- A field of whole bytes written on a boundary only appends its bytes (R73). -/
theorem fieldWritten_bytes {s : State} (hf : s.wFill = 0) (ha : s.wAcc = 0) (c : Nat) (v : Word) :
    fieldWritten (8 * c) v s =
      { s with wbuf := s.wbuf ++ (List.range c).map fun j => v.extractLsb' (8 * c - 8 * (j + 1)) 8 } := by
  have hnum : fieldNumber (8 * c) v s = lowBits (8 * c) v := by simp [fieldNumber, ha]
  have hdiv : 8 * c / 8 = c := Nat.mul_div_cancel_left c (by decide)
  have hmod : 8 * c % 8 = 0 := Nat.mul_mod_right 8 c
  have hopen : trailingByte (lowBits (8 * c) v) 0 = s.wAcc := by simp [trailingByte, Nat.mod_one, ha]
  simp only [fieldWritten, hnum, hf, Fin.val_zero, Nat.zero_add, hdiv, hmod, leadingBytes_lowBits, hopen]
  rfl

/-- A write of `c` bytes on a boundary commits the bytes of its value, most significant first (R35, R74, R75, R76). -/
theorem exec_write_bytes {i : Instr} {s : State} (c : Nat) (hw : i.wf = true) (hv : i.widthInvalid = false)
    (hk : i.writeWidth = some (8 * c)) (h0 : s.fatal = .none) (he : s.wErr = .none) (hf : s.wFill = 0)
    (ha : s.wAcc = 0) (hc : s.wLen + c ≤ s.cfg.wcap) : exec i s = .next { s with
      wbuf := s.wbuf ++ (List.range c).map fun j => i.valueField.extractLsb' (8 * c - 8 * (j + 1)) 8
      responses := s.responses ++ [⟨.ok, none⟩] } := by
  have hi : s.WriterInv := fun k _ => by simp [ha]
  rw [exec_write i (8 * c) s hw hv hk h0 he, writeField_fits hi (by rwa [wp_add_bytes_div]), fieldWritten_bytes hf ha]
  rfl

/-- A write of `c` bytes commits `c` bytes and keeps the fill count, at any fill count (R74, R75, R76). -/
theorem exec_write_bytes_count {i : Instr} {s : State} (c : Nat) (hw : i.wf = true) (hv : i.widthInvalid = false)
    (hk : i.writeWidth = some (8 * c)) (h0 : s.fatal = .none) (he : s.wErr = .none)
    (hc : s.wLen + c ≤ s.cfg.wcap) : ∃ t, exec i s = .next t ∧ t.wLen = s.wLen + c ∧ t.wFill = s.wFill := by
  rw [exec_write i (8 * c) s hw hv hk h0 he]
  obtain ⟨hover, _⟩ | ⟨_, t, _, ha, ht⟩ := writeField_cases (8 * c) i.valueField s
  · rw [wp_add_bytes_div] at hover; omega
  · refine ⟨_, ht, ?_, Fin.ext ?_⟩
    · rw [respond_wLen, wLen_eq, ha.moves, wp_add_bytes_div]
    · rw [respond_wFill, wFill_eq, wFill_eq, ha.moves, Nat.add_mul_mod_self_left]

/-- Settles O32: the three writes are writes of 1, 2 and 4 bytes. -/
theorem fixedWidthWritesCommitBigEndianBytes : Obligations.FixedWidthWritesCommitBigEndianBytes :=
  ⟨fun imm _ h0 he hf ha => ⟨exec_write_bytes (i := .wr8 imm) 1 rfl rfl rfl h0 he hf ha,
      exec_write_bytes (i := .wr16 imm) 2 rfl rfl rfl h0 he hf ha,
      exec_write_bytes (i := .wr32 imm) 4 rfl rfl rfl h0 he hf ha⟩,
    fun imm _ h0 he => ⟨exec_write_bytes_count (i := .wr8 imm) 1 rfl rfl rfl h0 he,
      exec_write_bytes_count (i := .wr16 imm) 2 rfl rfl rfl h0 he,
      exec_write_bytes_count (i := .wr32 imm) 4 rfl rfl rfl h0 he⟩⟩

/-! ### Alignment of the writer -/

/-- The state after `WALIGN`, before its response: the open byte, if it holds a bit, is committed (R77). -/
def aligned (s : State) : State :=
  { s with wbuf := if s.wFill = 0 then s.wbuf else s.wbuf ++ [s.wAcc], wFill := 0, wAcc := 0 }

theorem exec_walign_aligned {s : State} (h0 : s.fatal = .none) (he : s.wErr = .none) (hi : s.WriterInv)
    (hc : s.wFill ≠ 0 → s.wLen + 1 ≤ s.cfg.wcap) :
    exec .walign s = .next (respond ⟨.ok, none⟩ (aligned s)) := by
  rw [exec_walign_ok s h0 he hc, aligned]
  by_cases hf : s.wFill = 0
  · rw [if_pos hf, if_pos hf, ← hf, ← WriterInv.acc_zero hi hf]
  · rw [if_neg hf, if_neg hf]

/-- The bits of the open byte that are not filled are zero (R17). -/
theorem byteBits_drop_of_writerInv {s : State} (hi : s.WriterInv) :
    (byteBits s.wAcc).drop s.wFill.val = List.replicate (8 - s.wFill.val) false := by
  refine List.ext_getElem (by simp) fun k hk _ => ?_
  have hlt : s.wFill.val + k < 8 := by simp at hk; omega
  rw [List.getElem_drop, byteBits_getElem, WriterInv.streamBit hi (Nat.le_add_right _ _) hlt, List.getElem_replicate]

/-- Alignment writes zero bits up to the boundary (R77, R125). -/
theorem aligned_wBits {s : State} (hi : s.WriterInv) :
    (aligned s).wBits = s.wBits ++ List.replicate ((8 - s.wFill.val) % 8) false := by
  by_cases hf : s.wFill = 0
  · simp [State.wBits, aligned, hf]
  · have hpos : s.wFill.val ≠ 0 := fun e => hf (Fin.ext e)
    have hpad : (8 - s.wFill.val) % 8 = 8 - s.wFill.val := Nat.mod_eq_of_lt (by omega)
    have hbyte := List.take_append_drop s.wFill.val (byteBits s.wAcc)
    rw [byteBits_drop_of_writerInv hi] at hbyte
    simp [State.wBits, aligned, hf, hpad, hbyte]

/-- Settles O34: `WALIGN` ends in `aligned`. -/
theorem walignPadsTheOpenByte : Obligations.WalignPadsTheOpenByte :=
  fun _ h0 he hi hc => ⟨_, exec_walign_aligned h0 he hi hc, rfl, aligned_wBits hi⟩

/-! ### Reading out -/

theorem exec_wbegin_ok {s : State} (h0 : s.fatal = .none) (he : s.wErr = .none) :
    exec .wbegin s = .next (respond ⟨.ok, some 0⟩ s) := exec_of_effect h0 ⟨he, rfl, rfl⟩

theorem exec_wend_ok {s : State} (h0 : s.fatal = .none) (he : s.wErr = .none) :
    exec .wend s = .next (respond ⟨.ok, some (countWord s.wLen)⟩ s) := exec_of_effect h0 ⟨he, rfl, rfl⟩

theorem countWord_toNat {k : Nat} (h : k ≤ 2 ^ 32 - 1) : (countWord k).toNat = k :=
  Nat.mod_eq_of_lt (Nat.lt_of_le_pred (Nat.two_pow_pos 32) h)

theorem byteWord_toNat (b : Byte) : (byteWord b).toNat = b.toNat := by
  simp only [byteWord, BitVec.toNat_setWidth]
  exact Nat.mod_eq_of_lt (b.isLt.trans (by decide))

/-- Settles O35: the four commands meet the condition of completing, and their results are zero-extended. -/
theorem countAndReadOutChangeNothing : Obligations.CountAndReadOutChangeNothing := by
  refine fun s h0 he hlen => ⟨⟨_, countWord_toNat hlen, exec_wcount_ok h0 he, exec_wend_ok h0 he⟩,
    exec_wbegin_ok h0 he, fun idx hidx => ?_⟩
  have hb := List.getElem?_eq_getElem (l := s.wbuf) hidx
  exact ⟨_, _, hb, byteWord_toNat _, exec_wrdbyte_ok idx s h0 he _ hb⟩

/-- Settles O36: the condition of `E_WIDX` is met. -/
theorem readOutOutsideTheSnapshotFaults : Obligations.ReadOutOutsideTheSnapshotFaults :=
  fun _ _ h0 he hidx => exec_of_faults (f := .eWidx) h0 ⟨rfl, he, hidx⟩

/-- Several responses sent one after the other. -/
def respondAll (rs : List Response) (s : State) : State := { s with responses := s.responses ++ rs }

theorem respondAll_nil (s : State) : respondAll [] s = s := by rw [respondAll, List.append_nil]

theorem respondAll_respond (r : Response) (rs : List Response) (s : State) :
    respondAll rs (respond r s) = respondAll (r :: rs) s := by
  simp [respondAll, respond]

/-- Commands that only respond, whatever was sent before, run to their responses. -/
theorem runCommands_respondAll {α : Type} (cmd : α → Instr) (res : α → Response) {xs : List α} {s : State}
    (h : ∀ x ∈ xs, ∀ rs, exec (cmd x) (respondAll rs s) = .next (respond (res x) (respondAll rs s))) :
    runCommands (xs.map cmd) s = .next (respondAll (xs.map res) s) := by
  induction xs generalizing s with
  | nil => exact congrArg _ (respondAll_nil s).symm
  | cons x xs ih =>
    obtain ⟨hx, hxs⟩ := List.forall_mem_cons.1 h
    have hfirst : exec (cmd x) s = .next (respond (res x) s) := by simpa only [respondAll_nil] using hx []
    refine (runCommands_cons hfirst).2 ?_
    rw [ih fun y hy rs => by simpa only [respondAll_respond] using hxs y hy (res x :: rs), respondAll_respond]
    rfl

/-- The byte an index of the buffer reads out as. -/
def readOutResponse (s : State) (k : Nat) : Response := ⟨.ok, some (byteWord (s.wbuf.getD k 0))⟩

theorem map_readOutResponse (s : State) : (List.range s.wLen).map (readOutResponse s) =
    (snapshot s).map fun b => ⟨.ok, some (byteWord b)⟩ := by
  refine List.ext_getElem (by simp [snapshot]) fun k hk _ => ?_
  have hlt : k < s.wbuf.length := by simpa using hk
  simp [readOutResponse, snapshot, hlt]

/-- Reading out every index in order yields the snapshot (R88). -/
theorem runCommands_readOut {s : State} (h0 : s.fatal = .none) (he : s.wErr = .none) (hlen : s.wLen ≤ 2 ^ 32 - 1) :
    runCommands ((List.range s.wLen).map fun k => .wrdbyte (BitVec.ofNat 32 k)) s =
      .next (respondAll ((snapshot s).map fun b => ⟨.ok, some (byteWord b)⟩) s) := by
  rw [← map_readOutResponse s]
  refine runCommands_respondAll _ _ fun k hk rs => ?_
  have hlt : k < s.wbuf.length := List.mem_range.1 hk
  have hidx : (BitVec.ofNat 32 k).toNat = k := countWord_toNat (hlt.le.trans hlen)
  exact exec_wrdbyte_ok _ (respondAll rs s) h0 he _ (by simp [respondAll, hidx, hlt])

/-- Settles O37: `WBEGIN` and `WEND` only respond, and so does the read-out of every index. -/
theorem iterationYieldsTheSnapshot : Obligations.IterationYieldsTheSnapshot := by
  intro s h0 he hlen
  have hends : runCommands [.wbegin, .wend] s =
      .next (respondAll [⟨.ok, some 0⟩, ⟨.ok, some (countWord s.wLen)⟩] s) := by
    rw [← respondAll_respond, ← respondAll_respond, respondAll_nil]
    exact (runCommands_cons (exec_wbegin_ok h0 he)).2
      ((runCommands_cons (exec_wend_ok (s := respond ⟨.ok, some 0⟩ s) h0 he)).2 rfl)
  exact ⟨runCommands_append hends (runCommands_readOut (s := respondAll _ s) h0 he hlen), exec_wcount_ok h0 he⟩

end Sys2Proof.Machine

namespace Sys2Proof.Machine

/-! ### Aligning twice -/

/-- A second `RALIGN` only responds: the cursor is on a boundary (D6). -/
theorem Answers.ralign_again {s t : State} (h : Answers .ralign s t) : ∃ r, Answers .ralign t (respond r t) := by
  cases h with
  | refused h => exact ⟨_, .refused h⟩
  | raised f _ hf => exact hf.elim
  | completed u r h0 he =>
    obtain ⟨hr, rfl, rfl⟩ := he
    have hstay : ((s.rp + 7) / 8 * 8 + 7) / 8 * 8 = (s.rp + 7) / 8 * 8 := by omega
    exact ⟨_, .completed _ none h0 ⟨hr, by rw [respond_rp, seekR_rp, hstay]; rfl, rfl⟩⟩

/-- A second `WALIGN` only responds: the first left a boundary or a halted half (D6, R98). -/
theorem Answers.walign_again {s t : State} (h : Answers .walign s t) : ∃ r, Answers .walign t (respond r t) := by
  cases h with
  | refused h => exact ⟨_, .refused h⟩
  | raised f h0 hf =>
    obtain ⟨rfl, _⟩ := hf
    exact ⟨_, .refused (.inr ⟨h0, rfl, rfl, rfl, .inr ⟨rfl, WriterErr.noConfusion⟩⟩)⟩
  | completed u r h0 he =>
    obtain ⟨hw, rfl, ⟨hf, rfl⟩ | ⟨_, _, rfl⟩⟩ := he
    · exact ⟨_, .completed _ none h0 ⟨hw, rfl, .inl ⟨hf, rfl⟩⟩⟩
    · exact ⟨_, .completed _ none h0 ⟨hw, rfl, .inl ⟨rfl, rfl⟩⟩⟩

/-- Under the writer invariant `WALIGN` leaves no open bit. -/
theorem Effect.walign_empties {s u : State} {r : Option Word} (h : Effect .walign s u r) (hi : s.WriterInv) :
    u.wFill = 0 ∧ u.wAcc = 0 := by
  obtain ⟨_, _, ⟨hf, rfl⟩ | ⟨_, _, rfl⟩⟩ := h
  · exact ⟨hf, WriterInv.acc_zero hi hf⟩
  · exact ⟨rfl, rfl⟩

/-! ### `WALIGN` as a write of zero bits -/

@[simp] theorem fillBit_false (acc : Byte) (fill : Nat) : fillBit acc fill false = acc := by simp [fillBit]

@[simp] theorem valueBit_zero (i : Nat) : valueBit 0 i = false := by simp [valueBit]

/-- Committing does not look at the fill count. -/
theorem commitOpen_wFill (s : State) (k : Fin 8) : commitOpen { s with wFill := k } = commitOpen s := by
  unfold commitOpen memWriteWbuf
  split <;> rfl

/-- Zero bits up to the boundary commit the open byte as it is, whatever it holds. -/
theorem putField_zero_to_boundary (k : Nat) {s : State} (h : s.wFill.val + (k + 1) = 8) :
    putField 0 (k + 1) s = commitOpen s := by
  induction k generalizing s with
  | zero =>
    have hf : s.wFill = 7 := Fin.ext (by simpa using h)
    rw [putField_one, putBit, if_pos hf, valueBit_zero, fillBit_false]
  | succ k ih =>
    have hf : s.wFill ≠ 7 := fun e => by rw [e] at h; simp at h; omega
    rw [putField, valueBit_zero, putBit_open _ hf, fillBit_false, Option.bind_some,
      ih (by rw [wFill_succ hf]; omega), commitOpen_wFill]

/-- `WALIGN` off a boundary, past its capacity check, commits the open byte (R77). -/
theorem walignBody_of_commitOpen {s t : State} (hf : s.wFill ≠ 0) (hc : s.wLen + 1 ≤ s.cfg.wcap)
    (h : commitOpen s = some t) : walignBody s = .next (respondOk t) := by
  refine (if_neg hf).trans ((if_neg (Nat.not_lt.2 hc)).trans ?_)
  simp only [h]

/-- The pseudocode of `WALIGN` off a boundary is that of a field write of zero bits (R77, R125). -/
theorem walignBody_eq_writeField {s : State} (hf : s.wFill ≠ 0) : walignBody s = writeField (8 - s.wFill.val) 0 s := by
  have hlt := wFill_lt s
  have hend : (s.wp + (8 - s.wFill.val)) / 8 = s.wLen + 1 := by unfold State.wp; omega
  have hput : putField 0 (8 - s.wFill.val) s = commitOpen s := by
    rw [show 8 - s.wFill.val = 7 - s.wFill.val + 1 by omega]
    exact putField_zero_to_boundary _ (by omega)
  obtain ⟨hover, hwrite⟩ | ⟨hfit, t, ht, _, hwrite⟩ := writeField_cases (8 - s.wFill.val) 0 s
  · rw [hend] at hover
    exact ((if_neg hf).trans (if_pos hover)).trans hwrite.symm
  · rw [hend] at hfit
    rw [hput] at ht
    exact (walignBody_of_commitOpen hf hfit ht).trans hwrite.symm

theorem exec_walign_eq_wbits {s : State} (hf : s.wFill ≠ 0) :
    exec .walign s = exec (.wbits (BitVec.ofNat 8 (8 - s.wFill.val)) 0) s := by
  have hlt := wFill_lt s
  have hpos : s.wFill.val ≠ 0 := fun e => hf (Fin.ext e)
  have hn : (BitVec.ofNat 8 (8 - s.wFill.val)).toNat = 8 - s.wFill.val := Nat.mod_eq_of_lt (by omega)
  refine congrArg (unlessFatal s) ?_
  rw [whenWidth_pass _ _ (by rw [hn]; omega), wbitsBody, hn, walignBody_eq_writeField hf]

/-- Settles O39: the second alignment finds a boundary or a halted half, and off a boundary `WALIGN` puts zero bits. -/
theorem alignmentLaws : Obligations.AlignmentLaws := by
  refine ⟨fun s t h => ?_, fun s t h => ?_, fun s t hi h hr => ?_, fun s => exec_walign_eq_wbits⟩
  · obtain ⟨r, hr⟩ := (exec_cases h).ralign_again
    exact ⟨r, exec_of_answers hr⟩
  · obtain ⟨r, hr⟩ := (exec_cases h).walign_again
    exact ⟨r, exec_of_answers hr⟩
  · obtain ⟨u, _, he, rfl⟩ := effect_of_exec_ok h hr
    exact he.walign_empties hi

/-! ### Positions -/

theorem half_of_writeWidth {i : Instr} {k : Nat} (h : i.writeWidth = some k) : i.half = .writer := by
  cases i <;> simp [Instr.writeWidth] at h <;> rfl

theorem ne_wnew_of_writeWidth {i : Instr} {k : Nat} (h : i.writeWidth = some k) : i ≠ .wnew := by
  rintro rfl
  cases h

/-- A fault of a write command is recorded in `FATAL` or in `W.ERR` (R96). -/
theorem Faults.write_recorded {i : Instr} {s : State} {f : FaultCode} {k : Nat} (h : Faults i s f)
    (hk : i.writeWidth = some k) : (record f s).fatal ≠ .none ∨ (record f s).wErr ≠ .none := by
  cases i <;> simp only [Instr.writeWidth, reduceCtorEq] at hk
  case wbits | wbit => obtain ⟨rfl, _⟩ | ⟨rfl, _⟩ := h <;> simp
  case wr8 | wr16 | wr32 => obtain ⟨rfl, _⟩ := h; simp

/-- A write command after which neither `FATAL` nor `W.ERR` is set found both clear and moved `WP` by its width. -/
theorem Answers.write_moves {i : Instr} {s t : State} {k : Nat} (h : Answers i s t) (hk : i.writeWidth = some k)
    (ht0 : t.fatal = .none) (hte : t.wErr = .none) : s.fatal = .none ∧ s.wErr = .none ∧ t.wp = s.wp + k := by
  cases h with
  | refused h =>
    obtain ⟨h0, _⟩ | ⟨_, _, _, _, ⟨hh, _⟩ | ⟨_, he⟩⟩ := h
    · exact absurd ht0 h0
    · rw [half_of_writeWidth hk] at hh; cases hh
    · exact absurd hte he
  | raised f _ hf =>
    obtain hne | hne := hf.write_recorded hk
    · exact absurd ht0 hne
    · exact absurd hte hne
  | completed u r _ he =>
    exact ⟨he.frame.fatal.symm.trans ht0, (he.frame.wErr (ne_wnew_of_writeWidth hk)).symm.trans hte,
      (he.appends hk).moves⟩

/-- A list of writes that raises no fault moves `WP` by the sum of its widths (R120). -/
theorem runCommands_writes_wp {is : List Instr} {s t : State} (hw : ∀ i ∈ is, i.writeWidth ≠ none)
    (h : runCommands is s = .next t) (ht0 : t.fatal = .none) (hte : t.wErr = .none) :
    s.fatal = .none ∧ s.wErr = .none ∧ t.wp = s.wp + (is.filterMap Instr.writeWidth).sum := by
  induction is generalizing s with
  | nil => cases h; exact ⟨ht0, hte, rfl⟩
  | cons i is ih =>
    obtain ⟨u, hu, hut⟩ := runCommands_cons_inv h
    obtain ⟨hi, his⟩ := List.forall_mem_cons.1 hw
    obtain ⟨k, hk⟩ := Option.ne_none_iff_exists'.1 hi
    obtain ⟨hu0, hue, hrest⟩ := ih his hut
    obtain ⟨hs0, hse, hfirst⟩ := (exec_cases hu).write_moves hk hu0 hue
    rw [List.filterMap_cons_some hk, List.sum_cons, hrest, hfirst, Nat.add_assoc]
    exact ⟨hs0, hse, rfl⟩

theorem State.FreshWriter.wp {s : State} (h : s.FreshWriter) : s.wp = 0 := by
  rw [← wBits_length, h.wBits]; rfl

/-- Settles O40: an answer `OK` is a completed effect, which says how far it moves each cursor; and a list of writes is
added up. -/
theorem positionLaw : Obligations.PositionLaw := by
  refine ⟨fun i s t r h hr => ?_, fun is s t hfresh hw h ht0 hte => ?_⟩
  · obtain ⟨u, _, he, rfl⟩ := effect_of_exec_ok h hr
    refine ⟨?_, fun k hk => (he.appends hk).moves, ?_, ?_, ?_⟩
    · rintro n rfl; exact he.rp_eq
    · rintro rfl; exact he.rp_eq
    · rintro rfl; exact he.walign_wp
    · rintro (rfl | rfl | rfl | rfl | ⟨idx, rfl⟩ | rfl) <;>
        exact ⟨he.rp_eq, (he.writer_kept rfl (by simp) (by simp)).2⟩
  · obtain ⟨_, _, hwp⟩ := runCommands_writes_wp hw h ht0 hte
    rw [hfresh.wp, Nat.zero_add] at hwp
    exact ⟨hwp ▸ wLen_eq t, hwp ▸ wFill_eq t⟩

/-! ### Fields written from a fresh writer and aligned -/

theorem StepInvariant.of_runCommands {P : State → Prop} (hP : StepInvariant P) {is : List Instr} {s t : State}
    (h : runCommands is s = .next t) : P s → P t :=
  runCommands_induction (R := fun s t => P s → P t) (fun _ => id) (fun _ _ _ hsu hut hs => hut (hsu hs))
    (fun _ _ _ _ ha => hP.of_answers ha) h

theorem Answers.cfg {i : Instr} {s t : State} (h : Answers i s t) : t.cfg = s.cfg := by
  cases h with
  | refused => rfl
  | raised f => rw [respond_cfg, record_cfg]
  | completed u r _ he => exact he.frame.cfg

theorem runCommands_cfg {is : List Instr} {s t : State} (h : runCommands is s = .next t) : t.cfg = s.cfg :=
  runCommands_induction (R := fun s t => t.cfg = s.cfg) (fun _ => rfl) (fun _ _ _ hsu hut => hut.trans hsu)
    (fun _ _ _ _ ha => ha.cfg) h

/-- The number of zero bits that take a position to the boundary at or after it (R77). -/
def padding (p : Nat) : Nat := (8 - p % 8) % 8

/-- Fields written and aligned are the snapshot's bits, up to the padding. -/
theorem runCommands_packed {fs : List (Width × Word)} {s : State} (h0 : s.fatal = .none) (hfresh : s.FreshWriter)
    (hw : ∀ f ∈ fs, legalWidth f.1) (hc : (totalBits fs + 7) / 8 ≤ s.cfg.wcap) :
    ∃ t, runCommands (writeFields fs ++ [.walign]) s = .next t ∧ t.fatal = .none ∧ t.wErr = .none ∧
      bytesBits (snapshot t) = fieldsBits fs ++ List.replicate (padding (totalBits fs)) false := by
  have ⟨_, _, _, he⟩ := hfresh
  obtain ⟨t, ht, ht0, hte, hbits⟩ :=
    runCommands_writeFields h0 he hfresh.writerInv hw (by rw [hfresh.wp]; omega)
  rw [hfresh.wBits, List.nil_append] at hbits
  have hit : t.WriterInv := writerInv_stepInvariant.of_runCommands ht hfresh.writerInv
  have htp : t.wp = totalBits fs := by rw [← wBits_length, hbits, fieldsBits_length]
  have hfill : t.wFill.val = totalBits fs % 8 := by rw [wFill_eq, htp]
  have hcap : t.wFill ≠ 0 → t.wLen + 1 ≤ t.cfg.wcap := fun hf => by
    have hpos : t.wFill.val ≠ 0 := fun e => hf (Fin.ext e)
    rw [runCommands_cfg ht, wLen_eq, htp]; omega
  have halign := exec_walign_aligned ht0 hte hit hcap
  refine ⟨_, runCommands_append ht ((runCommands_cons halign).2 rfl), ht0, hte, ?_⟩
  have hpacked := aligned_wBits hit
  rw [hbits, hfill] at hpacked
  exact (wBits_of_wFill_zero (s := aligned t) rfl).symm.trans hpacked

theorem bitsValue_replicate_false (k : Nat) : bitsValue (List.replicate k false) = 0 := by
  induction k with
  | zero => rfl
  | succ k ih => rw [List.replicate_succ', bitsValue_append_one, ih]; rfl

/-- A field of up to 8 bits at the top of a byte (R122). -/
theorem byteBits_trailingByte {n : Nat} (hn : n ≤ 8) (v : Word) :
    byteBits (trailingByte v.toNat n) = fieldBits n v ++ List.replicate (8 - n) false := by
  apply bitsValue_inj
  · simp; omega
  · rw [bitsValue_byteBits, trailingByte_toNat _ hn, bitsValue_append, bitsValue_fieldBits, bitsValue_replicate_false,
      List.length_replicate]
    rfl

theorem runCommands_wbits_walign {n : Width} {v : Word} {s : State} (h0 : s.fatal = .none) (hfresh : s.FreshWriter)
    (hpos : 1 ≤ n.toNat) (hle : n.toNat ≤ 8) (hc : 1 ≤ s.cfg.wcap) :
    ∃ t, runCommands [.wbits n v, .walign] s = .next t ∧ t.wErr = .none ∧ t.fatal = .none ∧
      snapshot t = [trailingByte v.toNat n.toNat] := by
  have htotal : totalBits [(n, v)] = n.toNat := totalBits_cons (n, v) []
  obtain ⟨t, ht, ht0, hte, hbits⟩ := runCommands_packed (fs := [(n, v)]) h0 hfresh
    (List.forall_mem_singleton.2 ⟨hpos, hle.trans (by decide)⟩) (by rw [htotal]; omega)
  refine ⟨t, ht, hte, ht0, bytesBits_inj (hbits.trans ?_)⟩
  have hpad : padding n.toNat = 8 - n.toNat := by unfold padding; omega
  rw [htotal, hpad, fieldsBits_cons, bytesBits_cons, byteBits_trailingByte hle]
  simp [fieldsBits]

/-- Settles O42: the snapshot has the bits of the field and its padding, which are those of one byte. -/
theorem bitOrderProperty : Obligations.BitOrderProperty := by
  refine ⟨fun n v s h0 hfresh hpos hle hc => runCommands_wbits_walign h0 hfresh hpos hle hc, fun s h0 hfresh hc => ?_⟩
  obtain ⟨t, ht, _, _, hsnap⟩ :=
    runCommands_wbits_walign (n := 4) (v := 0b1011) h0 hfresh (by decide) (by decide) hc
  exact ⟨t, ht, hsnap⟩

/-! ### Fields read back -/

/-- The response to a read of a field that was written (R123). -/
def fieldResponse (f : Width × Word) : Response := ⟨.ok, some (BitVec.ofNat 32 (lowBits f.1.toNat f.2))⟩

/-- Fields whose bits lie ahead of the cursor are read as they were written. -/
theorem runCommands_readBack {fs : List (Width × Word)} {q : State} {rest : List Bool} (h0 : q.fatal = .none)
    (he : q.rErr = .none) (hw : ∀ f ∈ fs, legalWidth f.1) (hbits : q.rBits.drop q.rp = fieldsBits fs ++ rest) :
    runCommands (readFields (fs.map Prod.fst)) q =
      .next (respondAll (fs.map fieldResponse) (q.seekR (q.rp + totalBits fs))) := by
  induction fs generalizing q with
  | nil => exact congrArg _ ((respondAll_nil _).trans (seekR_self q)).symm
  | cons f fs ih =>
    obtain ⟨n, v⟩ := f
    obtain ⟨hn, hfs⟩ := List.forall_mem_cons.1 hw
    rw [fieldsBits_cons, List.append_assoc] at hbits
    have hlen := congrArg List.length hbits
    have hfit : q.rp + n.toNat ≤ 8 * q.rLen := by
      have hpos : 1 ≤ n.toNat := hn.1
      simp at hlen; omega
    have hfield : nextBits q n.toNat = BitVec.ofNat 32 (lowBits n.toNat v) := by
      rw [nextBits, hbits, List.take_left' (fieldBits_length _ _), bitsValue_fieldBits]
    have hahead : q.rBits.drop (q.rp + n.toNat) = fieldsBits fs ++ rest := by
      rw [← List.drop_drop, hbits, List.drop_left' (fieldBits_length _ _)]
    have hread := exec_rread_ok n q h0 he hn hfit
    rw [hfield] at hread
    refine (runCommands_cons hread).2 ?_
    refine (ih (q := respond _ (q.seekR (q.rp + n.toNat))) h0 he hfs
      (by rw [respond_rBits, respond_rp, seekR_rBits, seekR_rp]; exact hahead)).trans ?_
    rw [respond_rp, seekR_rp, List.map_cons, totalBits_cons, ← Nat.add_assoc, ← respondAll_respond]
    rfl

theorem exec_ratend_at_end {s : State} (h0 : s.fatal = .none) (he : s.rErr = .none) (hend : s.rByte = s.rLen) :
    exec .ratend s = .next (respond ⟨.ok, some 1⟩ s) := by
  rw [exec_ratend_ok s h0 he, (queryWord_eq_one_iff _).2 (decide_eq_true hend)]

/-- In the last byte of the bound buffer, or at its end, aligning reaches the end (R64, R65). -/
theorem runCommands_ralign_ratend {s : State} (h0 : s.fatal = .none) (he : s.rErr = .none)
    (hlast : (s.rp + 7) / 8 = s.rLen) : ∃ u, runCommands [.ralign, .ratend] s = .next u ∧
      u.responses = s.responses ++ [⟨.ok, none⟩, ⟨.ok, some 1⟩] := by
  have hbyte : (s.seekR ((s.rp + 7) / 8 * 8)).rByte = s.rLen := (Nat.mul_div_cancel _ (by decide)).trans hlast
  have hend := exec_ratend_at_end (s := respond ⟨.ok, none⟩ (s.seekR ((s.rp + 7) / 8 * 8))) h0 he hbyte
  exact ⟨_, (runCommands_cons (exec_ralign_ok s h0 he)).2 ((runCommands_cons hend).2 rfl), List.append_assoc _ _ _⟩

/-- Settles O43: the reader's bits are those of the fields and the padding, so the fields come back and the alignment
ends at the last byte's end. -/
theorem writeThenReadRoundTrip : Obligations.WriteThenReadRoundTrip := by
  intro fs s h0 hfresh hw hc
  obtain ⟨t, ht, ht0, hte, hpacked⟩ := runCommands_packed h0 hfresh hw hc
  refine ⟨t, ht, ht0, hte, fun q hq0 ⟨hbound, hqe⟩ ⟨hbyte, hbit⟩ => ?_⟩
  have hrp : q.rp = 0 := by rw [State.rp, hbyte, hbit]; rfl
  have hrBits : q.rBits = fieldsBits fs ++ List.replicate (padding (totalBits fs)) false :=
    (congrArg bytesBits hbound).trans hpacked
  have hrLen : q.rLen = (totalBits fs + 7) / 8 := by
    have hlen := congrArg List.length hrBits
    rw [rBits_length, List.length_append, fieldsBits_length, List.length_replicate, padding] at hlen
    omega
  have hreads := runCommands_readBack hq0 hqe hw (by rw [hrp, List.drop_zero]; exact hrBits)
  rw [hrp, Nat.zero_add] at hreads
  obtain ⟨u, hu, hres⟩ := runCommands_ralign_ratend
    (s := respondAll (fs.map fieldResponse) (q.seekR (totalBits fs))) hq0 hqe
    ((congrArg (fun p => (p + 7) / 8) (seekR_rp q (totalBits fs))).trans hrLen.symm)
  exact ⟨u, runCommands_append hreads hu, hres⟩

end Sys2Proof.Machine
